-- ==== Sys2Proof/Word.lean ====
section
/-! DEFINITION. The widths the machine holds: bytes, 16-bit words, 12-bit addresses and the sixteen register indices. -/

namespace Sys2Proof

/-- An 8-bit value: a general register, a timer, a byte of memory (10_state R20, R28). -/
abbrev Byte := BitVec 8

/-- A 16-bit value: an instruction word, `I`, the program counter, a stack entry (00_scope R8). -/
abbrev Word := BitVec 16

/-- The 12-bit address field `NNN` (30_encoding R81). -/
abbrev Addr12 := BitVec 12

/-- One of sixteen things: a general register, a hex key, a sprite row count (30_encoding R83). -/
abbrev Ix := Fin 16

/-- The index of `VF`, the flag register (10_state R21). -/
abbrev vF : Ix := 15

end Sys2Proof
end

