-- ==== Sys2Proof/Config.lean ====
section
/-! DEFINITION. The fixed implementation parameters of 00_scope R8, and what the spec leaves free: the random byte and the schedule
of the timers and the host. -/

namespace Sys2Proof.Machine

/-- What an agent other than the CPU does at a boundary between two CPU steps (20_memory R62, 60_exceptions R250). -/
inductive Event where
  /-- A tick of the delay timer (44_timers_input R210). -/
  | tickDT
  /-- A tick of the sound timer (44_timers_input R210). -/
  | tickST
  /-- The host reports a press of key `k` (44_timers_input R207). -/
  | keyDown (k : Ix)
  /-- The host reports that key `k` is released (44_timers_input R207). -/
  | keyUp (k : Ix)
  /-- The host reads the framebuffer out (43_display R187). -/
  | readout
  deriving DecidableEq, Repr

end Sys2Proof.Machine

namespace Sys2Proof.Config

/-- `MEM_SIZE` (00_scope R8). -/
abbrev memSize : Nat := 4096

/-- `STACK_DEPTH` (00_scope R8, 10_state R27). -/
abbrev stackDepth : Nat := 16

/-- `FB_WIDTH` (00_scope R8). -/
abbrev fbWidth : Nat := 64

/-- `FB_HEIGHT` (00_scope R8). -/
abbrev fbHeight : Nat := 32

/-- `FONT_BASE` (00_scope R8). -/
abbrev fontBase : Nat := 0x050

/-- The font region's length: 16 glyphs of 5 bytes (00_scope R8). -/
abbrev fontLen : Nat := 80

/-- `PROG_BASE`, also the reset value of the program counter (00_scope R8, 10_state R24). -/
abbrev progBase : Nat := 0x200

/-- `PROG_MAX_LEN` (00_scope R8). -/
abbrev progMaxLen : Nat := 3584

/-- The byte each RND draws, a free value: `drawByte k` is the draw of the RND instruction before which `k` draws were
made (00_scope R15 "any 8-bit value, under no law"; 41_alu R141, D23). It has no body, so no proof knows a value of it.
DESIGN CHOICE, log 9. -/
opaque drawByte : Nat → Byte

/-- The timer schedule and the host schedule (00_scope R9: "free"), a free value: `scheduledEvents n` are the events that land
at boundary `n`, in their order, for every `n` without end, where a state's `schedule` gives no group for it (44_timers_input
R210, R207; 43_display R187; D24). It has no body, so no proof knows a value of it. DESIGN CHOICE, log 8. -/
opaque scheduledEvents : Nat → List Machine.Event

end Sys2Proof.Config
end

