-- ==== Sys2Proof/Syntax.lean ====
section
/-! DEFINITION. The instruction set: one constructor for each of the 36 rows of spec/opcode_table.json (30_encoding R85). -/

namespace Sys2Proof

/-- The operations of 30_encoding R85, in that rule's order. Operand fields are those of R81: `x`, `y` register
indices, `nn` an 8-bit immediate, `nnn` a 12-bit address, `n` a row count. -/
inductive Instr where
  /-- `EOF`, the one-byte end-of-program sentinel 0x0A (40_control R102). -/
  | eof
  /-- `CLS` (43_display R180). -/
  | cls
  /-- `RET` (40_control R105). -/
  | ret
  /-- `JP NNN` (40_control R106). -/
  | jp (nnn : Addr12)
  /-- `CALL NNN` (40_control R108). -/
  | call (nnn : Addr12)
  /-- `SE Vx, NN` (40_control R110). -/
  | seImm (x : Ix) (nn : Byte)
  /-- `SNE Vx, NN` (40_control R111). -/
  | sneImm (x : Ix) (nn : Byte)
  /-- `SE Vx, Vy` (40_control R112). -/
  | seReg (x y : Ix)
  /-- `LD Vx, NN` (41_alu R130). -/
  | ldImm (x : Ix) (nn : Byte)
  /-- `ADD Vx, NN` (41_alu R131). -/
  | addImm (x : Ix) (nn : Byte)
  /-- `LD Vx, Vy` (41_alu R132). -/
  | ldReg (x y : Ix)
  /-- `OR Vx, Vy` (41_alu R133). -/
  | orReg (x y : Ix)
  /-- `AND Vx, Vy` (41_alu R134). -/
  | andReg (x y : Ix)
  /-- `XOR Vx, Vy` (41_alu R135). -/
  | xorReg (x y : Ix)
  /-- `ADD Vx, Vy` (41_alu R136). -/
  | addReg (x y : Ix)
  /-- `SUB Vx, Vy` (41_alu R137). -/
  | sub (x y : Ix)
  /-- `SHR Vx {, Vy}` (41_alu R138); the hardware ignores `y` (D16), which is kept so that no bit of the word is lost. -/
  | shr (x y : Ix)
  /-- `SUBN Vx, Vy` (41_alu R139). -/
  | subn (x y : Ix)
  /-- `SHL Vx {, Vy}` (41_alu R140); `y` as in `shr`. -/
  | shl (x y : Ix)
  /-- `SNE Vx, Vy` (40_control R113). -/
  | sneReg (x y : Ix)
  /-- `LD I, NNN` (42_index_memory R160). -/
  | ldI (nnn : Addr12)
  /-- `JP V0, NNN` (40_control R114). -/
  | jpV0 (nnn : Addr12)
  /-- `RND Vx, NN` (41_alu R141). -/
  | rnd (x : Ix) (nn : Byte)
  /-- `DRW Vx, Vy, N` (43_display R181). -/
  | drw (x y n : Ix)
  /-- `SKP Vx` (44_timers_input R203). -/
  | skp (x : Ix)
  /-- `SKNP Vx` (44_timers_input R204). -/
  | sknp (x : Ix)
  /-- `LD Vx, DT` (44_timers_input R200). -/
  | ldVxDT (x : Ix)
  /-- `LD Vx, K` (44_timers_input R206). -/
  | ldVxK (x : Ix)
  /-- `LD DT, Vx` (44_timers_input R201). -/
  | ldDTVx (x : Ix)
  /-- `LD ST, Vx` (44_timers_input R202). -/
  | ldSTVx (x : Ix)
  /-- `ADD I, Vx` (42_index_memory R161). -/
  | addI (x : Ix)
  /-- `LD F, Vx` (42_index_memory R163). -/
  | ldF (x : Ix)
  /-- `LD B, Vx` (42_index_memory R164). -/
  | ldB (x : Ix)
  /-- `LD [I], Vx` (42_index_memory R165). -/
  | ldMemFromRegs (x : Ix)
  /-- `LD Vx, [I]` (42_index_memory R166). -/
  | ldRegsFromMem (x : Ix)
  /-- `UNKNOWN`, the fallback: a word that matches no other row (40_control R125). -/
  | unknown (word : Word)
  deriving DecidableEq, Repr

/-- The length in bytes: 1 for the sentinel, 2 for every other form (30_encoding R80). -/
def Instr.size : Instr → Nat
  | .eof => 1
  | _ => 2

end Sys2Proof
end

