-- ==== Sys2Proof/WellFormed.lean ====
section
/-! DEFINITION. Which instructions are well formed: every operand field has its width by type, so the one check is that the
word of an `UNKNOWN` is one of the words 30_encoding R86 writes out. -/

namespace Sys2Proof

/-- The words of 30_encoding R86, family by family: the words that match no row of R85. -/
def isUnknownWord (w : Word) : Bool :=
  let sub4 := w.extractLsb' 0 4
  let sub8 := w.extractLsb' 0 8
  match (w.extractLsb' 12 4).toNat with
  | 0x0 => w != 0x00E0 && w != 0x00EE && w.extractLsb' 8 8 != 0x0A
  | 0x5 => sub4 != 0
  | 0x8 => sub4 == 0x8 || sub4 == 0x9 || sub4 == 0xA || sub4 == 0xB || sub4 == 0xC || sub4 == 0xD || sub4 == 0xF
  | 0x9 => sub4 != 0
  | 0xE => sub8 != 0x9E && sub8 != 0xA1
  | 0xF => !([0x07, 0x0A, 0x15, 0x18, 0x1E, 0x29, 0x33, 0x55, 0x65] : List Byte).contains sub8
  | _ => false

/-- A well-formed instruction: an `unknown` carries a word that matches no other row (30_encoding R86); all others are. -/
def Instr.wellFormed : Instr → Bool
  | .unknown w => isUnknownWord w
  | _ => true

end Sys2Proof
end

