-- ==== Sys2Proof/Decode.lean ====
section
/-! DEFINITION. The decoder, from a word and from a list of bytes, and the encoder, both from the encodings of 30_encoding R80 to
R86; the opcode map of R85 as rows of mask and match; and the host's reading of a word of spec/opcode_table.json. -/

namespace Sys2Proof

/-- `EOF_BYTE`, the end-of-program sentinel (00_scope R8, 40_control R100). -/
def eofByte : Byte := 0x0A

/-- `w[hi:lo]` of width 4 at `lo`, as an index (30_encoding R81). -/
def nibble (w : Word) (lo : Nat) : Ix := (w.extractLsb' lo 4).toFin

/-- The field `X = w[11:8]`. -/
def fieldX (w : Word) : Ix := nibble w 8

/-- The field `Y = w[7:4]`. -/
def fieldY (w : Word) : Ix := nibble w 4

/-- The field `N = w[3:0]`. -/
def fieldN (w : Word) : Ix := nibble w 0

/-- The field `NN = w[7:0]`. -/
def fieldNN (w : Word) : Byte := w.extractLsb' 0 8

/-- The field `NNN = w[11:0]`. -/
def fieldNNN (w : Word) : Addr12 := w.extractLsb' 0 12

/-- `b0 ++ b1`: the first byte is the more significant one (20_memory R52, 00_scope R10). -/
def wordOfBytes (b0 b1 : Byte) : Word := b0 ++ b1

/-- The more significant byte of a word, the one at the lower address (20_memory R52). -/
def highByte (w : Word) : Byte := w.extractLsb' 8 8

/-- The less significant byte of a word. -/
def lowByte (w : Word) : Byte := w.extractLsb' 0 8

/-- Family 0, by the whole low 12 bits (30_encoding R84); a word whose high byte is the sentinel is EOF (R85, 90_conflicts
C6), and the rest of the family is UNKNOWN (R87). -/
def decode0 (w : Word) : Instr :=
  if highByte w = eofByte then .eof
  else if w = 0x00E0 then .cls
  else if w = 0x00EE then .ret
  else .unknown w

/-- Family 8, by the bottom nibble (30_encoding R84, R85). -/
def decode8 (w : Word) : Instr :=
  match (fieldN w).val with
  | 0x0 => .ldReg (fieldX w) (fieldY w)
  | 0x1 => .orReg (fieldX w) (fieldY w)
  | 0x2 => .andReg (fieldX w) (fieldY w)
  | 0x3 => .xorReg (fieldX w) (fieldY w)
  | 0x4 => .addReg (fieldX w) (fieldY w)
  | 0x5 => .sub (fieldX w) (fieldY w)
  | 0x6 => .shr (fieldX w) (fieldY w)
  | 0x7 => .subn (fieldX w) (fieldY w)
  | 0xE => .shl (fieldX w) (fieldY w)
  | _ => .unknown w

/-- Family E, by the low byte (30_encoding R84, R85). -/
def decodeE (w : Word) : Instr :=
  match (fieldNN w).toNat with
  | 0x9E => .skp (fieldX w)
  | 0xA1 => .sknp (fieldX w)
  | _ => .unknown w

/-- Family F, by the low byte (30_encoding R84, R85). -/
def decodeF (w : Word) : Instr :=
  match (fieldNN w).toNat with
  | 0x07 => .ldVxDT (fieldX w)
  | 0x0A => .ldVxK (fieldX w)
  | 0x15 => .ldDTVx (fieldX w)
  | 0x18 => .ldSTVx (fieldX w)
  | 0x1E => .addI (fieldX w)
  | 0x29 => .ldF (fieldX w)
  | 0x33 => .ldB (fieldX w)
  | 0x55 => .ldMemFromRegs (fieldX w)
  | 0x65 => .ldRegsFromMem (fieldX w)
  | _ => .unknown w

/-- `decode(u16) -> Operation` (30_encoding R84, R85): total, the top nibble selects the family, and every word outside the
map is `unknown` (R86, R89). The encodings are PRESUMED by the spec itself (D1), log 1. -/
def decodeWord (w : Word) : Instr :=
  match (nibble w 12).val with
  | 0x0 => decode0 w
  | 0x1 => .jp (fieldNNN w)
  | 0x2 => .call (fieldNNN w)
  | 0x3 => .seImm (fieldX w) (fieldNN w)
  | 0x4 => .sneImm (fieldX w) (fieldNN w)
  | 0x5 => if (fieldN w).val = 0 then .seReg (fieldX w) (fieldY w) else .unknown w
  | 0x6 => .ldImm (fieldX w) (fieldNN w)
  | 0x7 => .addImm (fieldX w) (fieldNN w)
  | 0x8 => decode8 w
  | 0x9 => if (fieldN w).val = 0 then .sneReg (fieldX w) (fieldY w) else .unknown w
  | 0xA => .ldI (fieldNNN w)
  | 0xB => .jpV0 (fieldNNN w)
  | 0xC => .rnd (fieldX w) (fieldNN w)
  | 0xD => .drw (fieldX w) (fieldY w) (fieldN w)
  | 0xE => decodeE w
  | _ => decodeF w

/-- Why a list of bytes holds no instruction. -/
inductive DecodeError where
  /-- There is no byte at all. -/
  | noFirstByte
  /-- The first byte is not the sentinel and there is no second one. -/
  | noSecondByte
  deriving DecidableEq, Repr

/-- The instruction at the head of a list of bytes, lowest address first, and the bytes after it. The test for the one-byte
sentinel comes before the second byte is looked at (30_encoding R80, R84; 40_control R100). -/
def decodeBytes : List Byte → Except DecodeError (Instr × List Byte)
  | [] => .error .noFirstByte
  | b0 :: rest =>
    if b0 = eofByte then .ok (.eof, rest)
    else match rest with
      | [] => .error .noSecondByte
      | b1 :: rest' => .ok (decodeWord (wordOfBytes b0 b1), rest')

/-- Format `ADDR` of 30_encoding R82. -/
def wordAddr (op : BitVec 4) (nnn : Addr12) : Word := op ++ nnn

/-- Format `REG_IMM` (and `REG`, with the sub-opcode as `nn`) of 30_encoding R82. -/
def wordRegImm (op : BitVec 4) (x : Ix) (nn : Byte) : Word := op ++ BitVec.ofFin (w := 4) x ++ nn

/-- Format `REG_REG` (and `DRAW`, with `N` as `sub`) of 30_encoding R82. -/
def wordRegReg (op : BitVec 4) (x y sub : Ix) : Word :=
  op ++ BitVec.ofFin (w := 4) x ++ BitVec.ofFin (w := 4) y ++ BitVec.ofFin (w := 4) sub

/-- The word of an instruction (30_encoding R82, R85). The sentinel is written as the word 0x0A00 (R90). -/
def encodeWord : Instr → Word
  | .eof => 0x0A00
  | .cls => 0x00E0
  | .ret => 0x00EE
  | .jp nnn => wordAddr 0x1 nnn
  | .call nnn => wordAddr 0x2 nnn
  | .seImm x nn => wordRegImm 0x3 x nn
  | .sneImm x nn => wordRegImm 0x4 x nn
  | .seReg x y => wordRegReg 0x5 x y 0x0
  | .ldImm x nn => wordRegImm 0x6 x nn
  | .addImm x nn => wordRegImm 0x7 x nn
  | .ldReg x y => wordRegReg 0x8 x y 0x0
  | .orReg x y => wordRegReg 0x8 x y 0x1
  | .andReg x y => wordRegReg 0x8 x y 0x2
  | .xorReg x y => wordRegReg 0x8 x y 0x3
  | .addReg x y => wordRegReg 0x8 x y 0x4
  | .sub x y => wordRegReg 0x8 x y 0x5
  | .shr x y => wordRegReg 0x8 x y 0x6
  | .subn x y => wordRegReg 0x8 x y 0x7
  | .shl x y => wordRegReg 0x8 x y 0xE
  | .sneReg x y => wordRegReg 0x9 x y 0x0
  | .ldI nnn => wordAddr 0xA nnn
  | .jpV0 nnn => wordAddr 0xB nnn
  | .rnd x nn => wordRegImm 0xC x nn
  | .drw x y n => wordRegReg 0xD x y n
  | .skp x => wordRegImm 0xE x 0x9E
  | .sknp x => wordRegImm 0xE x 0xA1
  | .ldVxDT x => wordRegImm 0xF x 0x07
  | .ldVxK x => wordRegImm 0xF x 0x0A
  | .ldDTVx x => wordRegImm 0xF x 0x15
  | .ldSTVx x => wordRegImm 0xF x 0x18
  | .addI x => wordRegImm 0xF x 0x1E
  | .ldF x => wordRegImm 0xF x 0x29
  | .ldB x => wordRegImm 0xF x 0x33
  | .ldMemFromRegs x => wordRegImm 0xF x 0x55
  | .ldRegsFromMem x => wordRegImm 0xF x 0x65
  | .unknown w => w

/-- The bytes of an instruction, lowest address first: big-endian, and one byte for the sentinel (30_encoding R80, R90). -/
def encode (i : Instr) : List Byte :=
  match i with
  | .eof => [eofByte]
  | i => [highByte (encodeWord i), lowByte (encodeWord i)]

/-- The opcode map of 30_encoding R85, mask and match of each row in that rule's order (the fallback row has neither). -/
def opcodeRows : List (Word × Word) :=
  [ (0xFF00, 0x0A00), (0xFFFF, 0x00E0), (0xFFFF, 0x00EE),
    (0xF000, 0x1000), (0xF000, 0x2000), (0xF000, 0x3000), (0xF000, 0x4000), (0xF00F, 0x5000),
    (0xF000, 0x6000), (0xF000, 0x7000) ] ++
  [ (0xF00F, 0x8000), (0xF00F, 0x8001), (0xF00F, 0x8002), (0xF00F, 0x8003), (0xF00F, 0x8004),
    (0xF00F, 0x8005), (0xF00F, 0x8006), (0xF00F, 0x8007), (0xF00F, 0x800E), (0xF00F, 0x9000) ] ++
  [ (0xF000, 0xA000), (0xF000, 0xB000), (0xF000, 0xC000), (0xF000, 0xD000),
    (0xF0FF, 0xE09E), (0xF0FF, 0xE0A1), (0xF0FF, 0xF007), (0xF0FF, 0xF00A), (0xF0FF, 0xF015),
    (0xF0FF, 0xF018), (0xF0FF, 0xF01E), (0xF0FF, 0xF029), (0xF0FF, 0xF033), (0xF0FF, 0xF055),
    (0xF0FF, 0xF065) ]

/-- A word matches a row when its masked bits are the row's match value. -/
def matchesRow (w : Word) (row : Word × Word) : Bool := w &&& row.1 == row.2

/-- The two bytes in memory of an instruction whose bits are numbered as spec/opcode_table.json numbers them: the table's word
is one 16-bit big-endian word; an 8-bit row (the one-byte sentinel) is its byte and then a byte of zeros. DEDUCED, log 26. -/
def tableBytes (nbits w : Nat) : Byte × Byte :=
  if nbits ≤ 8 ∧ w < 256 then (BitVec.ofNat 8 w, 0)
  else (BitVec.ofNat 8 (w / 256), BitVec.ofNat 8 w)

/-- The instruction the decoder reads from an instruction whose bits, numbered as the opcode table numbers them, are `w`. -/
def decodeTableWord (nbits w : Nat) : Option Instr :=
  match decodeBytes [(tableBytes nbits w).1, (tableBytes nbits w).2] with
  | .ok (i, _) => some i
  | .error _ => none

end Sys2Proof
end

