-- ==== Sys2Proof/Machine/State.lean ====
section
/-! DEFINITION. The machine's state as plain data: everything 10_state gives the core, the three fields of the model's own (the
count of draws, the schedule and the number of the next boundary), the fault causes, and the state after reset. -/

namespace Sys2Proof.Machine

/-- A fatal condition with the information it records (60_exceptions R220, D19). `fetchedAt` is the spec's `info.at`, the
address the faulting instruction was fetched from. A step that raises one answers a NEXT state whose status records it
(R221), so no step of this model answers an outcome `fault` (log 10). Each is the spec's own condition, so safe. -/
inductive Fault where
  /-- Code 1. Raised by the fetch (40_control R100) and by DRW, LD B, LD [I], LD Vx,[I]; `addr` is the first address of
  the failing access and `len` its length. Safe. -/
  | outOfBounds (fetchedAt : Word) (addr len : Nat)
  /-- Code 2. Raised by RET with an empty stack (40_control R105). Safe. -/
  | stackUnderflow (fetchedAt : Word)
  /-- Code 3. Raised by CALL with 16 entries held (40_control R108). Safe. -/
  | stackOverflow (fetchedAt : Word)
  /-- Code 4. Raised by UNKNOWN (40_control R125). Safe. -/
  | unknownInstruction (fetchedAt word : Word)
  /-- Code 5. Raised by LD F with a digit above 15 (42_index_memory R163). Safe. -/
  | invalidDigit (fetchedAt : Word) (digit : Byte)
  /-- Code 6. Raised by SKP and SKNP with a key above 15 (44_timers_input R203, R204, D20). Safe. -/
  | invalidKey (fetchedAt : Word) (key : Byte)
  deriving DecidableEq, Repr

/-- Why a step has no meaning in this model. -/
inductive Refusal where
  /-- Raised by `exec` alone, for an instruction that has no meaning yet; no instruction of this model is left so. Safe. -/
  | notModelled (mnemonic : String)
  deriving DecidableEq, Repr

/-- The run status (10_state R29). -/
inductive Status where
  | running
  /-- Waiting for a key press that is to be written to `V[x]`. -/
  | waitKey (x : Ix)
  | halted
  /-- The state a fatal condition leaves, with its cause and information. -/
  | faulted (f : Fault)
  deriving DecidableEq, Repr

/-- The general registers (10_state R20). -/
abbrev Regs := Vector Byte 16

/-- The bytes that differ from what an unlisted address reads as, addresses strictly rising (20_memory R50). -/
abbrev Memory := List Host.Cell

/-- The 64 by 32 grid, row-major: row `y` holds the 64 pixels of that row, column `x` at index `x` (10_state R30, D34). -/
abbrev Framebuffer := Vector (Vector Bool 64) 32

/-- Everything 10_state gives the core. -/
structure State where
  /-- `V0` to `VF` (R20, R21). -/
  v : Regs
  /-- `I` (R23). -/
  i : Word
  /-- `pc` (R24). -/
  pc : Word
  /-- The return stack, bottom first (R27, 00_scope R12). -/
  stack : List Word
  /-- `DT` (R28). -/
  dt : Byte
  /-- `ST` (R28). -/
  st : Byte
  /-- `status` (R29). -/
  status : Status
  /-- The 4096-byte memory (R36, 20_memory R50). -/
  mem : Memory
  /-- `FB` (R30). -/
  fb : Framebuffer
  /-- `fb_dirty` (R31). -/
  fbDirty : Bool
  /-- `key_held` (R32). -/
  keyHeld : Vector Bool 16
  /-- The model's own: how many random bytes RND has drawn (00_scope R15; log 9). -/
  draws : Nat
  /-- The model's own: the groups of events that are given for the boundaries to come; the first lands before the next CPU
  step. Past the list's end the schedule goes on without end as the free `Config.scheduledEvents` (00_scope R9; log 8). -/
  schedule : List (List Event)
  /-- The model's own: the number of the next boundary, which picks its group of `Config.scheduledEvents` (log 8). -/
  boundary : Nat
  deriving DecidableEq, Repr

/-- The machine right after reset with no ROM (10_state R37, 70_reset_and_hazards R260). pc, stack and status are the spec's;
the rest takes the values of `CleanReset` (R262), DESIGN CHOICE, logs 3 to 6, and no event is given, so that the schedule is the
free one from boundary 0 on (logs 8, 9). `launch` takes them as parameters. -/
def State.reset : State where
  v := Vector.replicate 16 0
  i := 0
  pc := 0x200
  stack := []
  dt := 0
  st := 0
  status := .running
  mem := []
  fb := Vector.replicate 32 (Vector.replicate 64 false)
  fbDirty := false
  keyHeld := Vector.replicate 16 false
  draws := 0
  schedule := []
  boundary := 0

end Sys2Proof.Machine
end

