-- ==== Sys2Proof/Machine/Ops.lean ====
section
/-! DEFINITION. The named operations every meaning is written over: memory, registers, program counter, return stack, the entry
into a fault, the fetch, the framebuffer. -/

namespace Sys2Proof.Machine

/-! ## Memory (20_memory) -/

/-- The default `FONT`, glyphs 0 to F of five rows each (20_memory R57). PRESUMED by the spec itself (D10), log 2. -/
def defaultFont : List Byte :=
  [ 0xF0, 0x90, 0x90, 0x90, 0xF0,  0x20, 0x60, 0x20, 0x20, 0x70,
    0xF0, 0x10, 0xF0, 0x80, 0xF0,  0xF0, 0x10, 0xF0, 0x10, 0xF0 ] ++
  [ 0x90, 0x90, 0xF0, 0x10, 0x10,  0xF0, 0x80, 0xF0, 0x10, 0xF0,
    0xF0, 0x80, 0xF0, 0x90, 0xF0,  0xF0, 0x10, 0x20, 0x40, 0x40 ] ++
  [ 0xF0, 0x90, 0xF0, 0x90, 0xF0,  0xF0, 0x90, 0xF0, 0x10, 0xF0,
    0xF0, 0x90, 0xF0, 0x90, 0x90,  0xE0, 0x90, 0xE0, 0x90, 0xE0 ] ++
  [ 0xF0, 0x80, 0x80, 0x80, 0xF0,  0xE0, 0x90, 0x90, 0x90, 0xE0,
    0xF0, 0x80, 0xF0, 0x80, 0xF0,  0xF0, 0x80, 0xF0, 0x80, 0x80 ]

/-- What `RESET_MEM` is taken to be outside the font (20_memory R56, D8; DESIGN CHOICE, log 4). -/
def resetFill : Byte := 0x00

/-- What an address that memory does not list reads as: the default font at 0x050 to 0x09F, `resetFill` elsewhere. -/
def unlisted (a : Nat) : Byte :=
  if Config.fontBase ≤ a then defaultFont.getD (a - Config.fontBase) resetFill else resetFill

/-- The byte at an address (20_memory R50); the bound check of an access is `memRead`'s. -/
def readByte : Memory → Nat → Byte
  | [], a => unlisted a
  | (k, b) :: m, a => if a = k then b else readByte m a

/-- Lists `a` with `b` in front of a memory whose addresses are all higher, unless `a` reads as `b` unlisted. -/
def consByte (a : Nat) (b : Byte) (m : Memory) : Memory :=
  if b = unlisted a then m else (a, b) :: m

/-- Writes one byte and keeps the canonical form. -/
def writeByte : Memory → Nat → Byte → Memory
  | [], a, b => consByte a b []
  | (k, c) :: m, a, b =>
    if a < k then consByte a b ((k, c) :: m)
    else if a = k then consByte a b m
    else (k, c) :: writeByte m a b

/-- Writes a list of bytes to `a`, `a + 1`, … (42_index_memory R162). -/
def writeBytes : Memory → Nat → List Byte → Memory
  | m, _, [] => m
  | m, a, b :: bs => writeBytes (writeByte m a b) (a + 1) bs

/-- The `n` bytes at `a`, `a + 1`, … -/
def bytesAt (m : Memory) (a n : Nat) : List Byte := (List.range n).map fun k => readByte m (a + k)

/-- `MemRead(addr, n)`: nothing when `addr + n > 4096`, on unbounded naturals (00_scope R13, 20_memory R53). -/
def memRead (m : Memory) (addr n : Nat) : Option (List Byte) :=
  if addr + n ≤ Config.memSize then some (bytesAt m addr n) else none

/-- `MemWrite(addr, n, bytes)`: nothing is written when `addr + n > 4096` (00_scope R13, 20_memory R53, R55). -/
def memWrite (m : Memory) (addr : Nat) (bytes : List Byte) : Option Memory :=
  if addr + bytes.length ≤ Config.memSize then some (writeBytes m addr bytes) else none

/-- The canonical form: addresses strictly rising and inside the address space, no entry that reads as if unlisted. -/
def Memory.wf (m : Memory) : Bool :=
  decide (m.Pairwise fun p q => p.1 < q.1) && m.all fun p => decide (p.1 < Config.memSize) && p.2 != unlisted p.1

/-- The canonical memory that reads as `f` at every address. -/
def memoryOf (f : Nat → Byte) : Memory :=
  (List.range Config.memSize).filterMap fun a => if f a = unlisted a then none else some (a, f a)

/-! ## Registers, program counter and stack (10_state) -/

/-- `V[x]` (00_scope R12). -/
def State.reg (s : State) (x : Ix) : Byte := s.v[x.val]

/-- `V[x] <- b` (00_scope R12); no register is hardwired (10_state R20). -/
def State.setReg (s : State) (x : Ix) (b : Byte) : State := { s with v := s.v.set x.val b }

/-- `V[k] <- bs[0]`, `V[k+1] <- bs[1]`, … -/
def loadRegs : Regs → Nat → List Byte → Regs
  | v, _, [] => v
  | v, k, b :: bs => loadRegs (v.setIfInBounds k b) (k + 1) bs

/-- The list `[V[0], …, V[x]]` (42_index_memory R165). -/
def State.regsUpTo (s : State) (x : Ix) : List Byte := s.v.toList.take (x.val + 1)

/-- `I <- w`. -/
def State.setI (s : State) (w : Word) : State := { s with i := w }

/-- `pc <- target` (00_scope R12). -/
def State.setPc (s : State) (target : Word) : State := { s with pc := target }

/-- The step's `pc <- pc + 2`, made before an instruction executes (40_control R101). -/
def State.advancePc (s : State) : State := s.setPc (s.pc + 2)

/-- The address the executing instruction was fetched from: `pc - 2`, since `pc` is already advanced (00_scope R14, R16). -/
def State.fetchedAt (s : State) : Word := s.pc - 2

/-- A taken skip adds exactly 2 to `pc` (40_control R116). -/
def State.skipIf (s : State) (c : Bool) : State := if c then s.setPc (s.pc + 2) else s

/-- `push(v)` (00_scope R12). -/
def State.push (s : State) (w : Word) : State := { s with stack := s.stack ++ [w] }

/-- `status <- x` (10_state R29). -/
def State.setStatus (s : State) (x : Status) : State := { s with status := x }

/-! ## Faults (60_exceptions) -/

/-- `raise Fault(cause, info)`: the status records the fault and the step ends; nothing else is saved and control goes
nowhere (00_scope R14, 60_exceptions R221). The spec has no return from a fault (R223). -/
def raise (f : Fault) (s : State) : Host.Outcome State Fault Refusal := .next (s.setStatus (.faulted f))

/-- The numeric cause code (60_exceptions R220). -/
def Fault.code : Fault → Nat
  | .outOfBounds .. => 1
  | .stackUnderflow .. => 2
  | .stackOverflow .. => 3
  | .unknownInstruction .. => 4
  | .invalidDigit .. => 5
  | .invalidKey .. => 6

/-- `MemWrite` as an instruction makes it: the bytes land, or OutOfBounds is raised and none does (20_memory R53, R55). -/
def storeBytes (s : State) (addr : Nat) (bytes : List Byte) : Host.Outcome State Fault Refusal :=
  match memWrite s.mem addr bytes with
  | some m => .next { s with mem := m }
  | none => raise (.outOfBounds s.fetchedAt addr bytes.length) s

/-- `MemRead` as an instruction makes it: `use` continues with the bytes, or OutOfBounds is raised before any other effect
(20_memory R53, R55). -/
def withBytes (s : State) (addr n : Nat) (use : List Byte → Host.Outcome State Fault Refusal) :
    Host.Outcome State Fault Refusal :=
  match memRead s.mem addr n with
  | some bytes => use bytes
  | none => raise (.outOfBounds s.fetchedAt addr n) s

/-! ## Fetch (40_control) -/

/-- The bytes of memory a fetch at `pc` can reach: two, one at the last address, none past it. -/
def fetchWindow (s : State) : List Byte :=
  bytesAt s.mem s.pc.toNat (min 2 (Config.memSize - s.pc.toNat))

/-- `Fetch()` and the decoding of what it returns: OutOfBounds at `pc`, or at `pc + 1` unless the byte at `pc` is the
sentinel (40_control R100, R101; priority 60_exceptions R224). -/
def fetch (s : State) : Except Fault Instr :=
  match decodeBytes (fetchWindow s) with
  | .ok (i, _) => .ok i
  | .error .noFirstByte => .error (.outOfBounds s.pc s.pc.toNat 1)
  | .error .noSecondByte => .error (.outOfBounds s.pc (s.pc.toNat + 1) 1)

/-- Where `withFetchWord` puts an instruction: at `pc` where its two bytes fit, else at the reset entry point. -/
def fetchPlace (s : State) : Word := if s.pc.toNat + 1 < Config.memSize then s.pc else BitVec.ofNat 16 Config.progBase

/-- What the CPU does in a status other than Running: no step of its own (40_control R101, 60_exceptions R224). -/
def idle (s : State) : Host.Outcome State Fault Refusal := .next s

/-! ## Framebuffer (43_display) -/

/-- `FB[x][y]`; off the grid there is no pixel, which reads as clear. -/
def pixel (fb : Framebuffer) (x y : Nat) : Bool :=
  if h : x < Config.fbWidth ∧ y < Config.fbHeight then (fb[y]'h.2)[x]'h.1 else false

/-- `FB[x][y] <- b`; off the grid nothing happens (43_display R183). -/
def setPixel (fb : Framebuffer) (x y : Nat) (b : Bool) : Framebuffer :=
  if h : x < Config.fbWidth ∧ y < Config.fbHeight then fb.set y ((fb[y]'h.2).set x b h.1) h.2 else fb

/-- The framebuffer with every pixel clear (43_display R185). -/
def clearedFb : Framebuffer := Vector.replicate Config.fbHeight (Vector.replicate Config.fbWidth false)

/-- One pixel of `draw`'s inner loop: XOR onto the grid, and the collision so far (43_display R182). -/
def drawPixel (acc : Framebuffer × Bool) (px py : Nat) (bit : Bool) : Framebuffer × Bool :=
  if px < Config.fbWidth ∧ py < Config.fbHeight then
    (setPixel acc.1 px py (pixel acc.1 px py ^^ bit), acc.2 || (pixel acc.1 px py && bit))
  else acc

/-- The eight bits of one sprite row, `b = 0` the most significant (43_display R182). -/
def drawRow (acc : Framebuffer × Bool) (x0 py : Nat) (row : Byte) : Framebuffer × Bool :=
  (List.range 8).foldl (fun acc b => drawPixel acc (x0 + b) py (row.getLsbD (7 - b))) acc

/-- The rows from `py` down. -/
def drawRows : Framebuffer × Bool → Nat → Nat → List Byte → Framebuffer × Bool
  | acc, _, _, [] => acc
  | acc, x0, py, row :: rows => drawRows (drawRow acc x0 py row) x0 (py + 1) rows

/-- `draw(x0, y0, rows)`: the new grid and `collided`; coordinates on unbounded naturals (43_display R182 to R184). -/
def draw (fb : Framebuffer) (x0 y0 : Nat) (rows : List Byte) : Framebuffer × Bool := drawRows (fb, false) x0 y0 rows

/-- Puts a new grid in place; every completed CLS and DRW sets `fb_dirty`, changed or not (43_display R186, D26). -/
def State.display (s : State) (fb : Framebuffer) : State := { s with fb := fb, fbDirty := true }

end Sys2Proof.Machine
end

