-- ==== Sys2Proof/Machine/Operands.lean ====
section
/-! DEFINITION. How operands are assembled (30_encoding R83) and the values computed from them. -/

namespace Sys2Proof.Machine

/-- `zext_16(NNN)` (30_encoding R83). -/
def zextAddr (nnn : Addr12) : Word := nnn.setWidth 16

/-- `zext_16` of a byte (00_scope R11). -/
def zextByte (b : Byte) : Word := b.setWidth 16

/-- The address of byte 0 of a transfer through `I`; byte `k` is at this plus `k` (42_index_memory R162). -/
def State.transferAddr (s : State) : Nat := s.i.toNat

/-- `font_glyph_address(d)` (20_memory R58). -/
def glyphAddress (d : Byte) : Word := BitVec.ofNat 16 (Config.fontBase + 5 * d.toNat)

/-- The three decimal digits of a byte, hundreds first (42_index_memory R164). -/
def bcdDigits (b : Byte) : List Byte :=
  [BitVec.ofNat 8 (b.toNat / 100), BitVec.ofNat 8 (b.toNat / 10 % 10), BitVec.ofNat 8 (b.toNat % 10)]

/-- A byte as a hex digit or hex key, where it is one: 0 to 15 (20_memory R58, 44_timers_input R205). -/
def hexValue (b : Byte) : Option Ix := if h : b.toNat < 16 then some ⟨b.toNat, h⟩ else none

/-- `wrap8(a + b)` (41_alu R142). -/
def add8 (a b : Byte) : Byte := BitVec.ofNat 8 (a.toNat + b.toNat)

/-- `wrap8(a + 256 - b)` (41_alu R137, R139). -/
def sub8 (a b : Byte) : Byte := BitVec.ofNat 8 (a.toNat + 256 - b.toNat)

/-- `a >> 1`, logical (41_alu R138). -/
def shr8 (a : Byte) : Byte := BitVec.ofNat 8 (a.toNat / 2)

/-- `wrap8(a * 2)` (41_alu R140). -/
def shl8 (a : Byte) : Byte := BitVec.ofNat 8 (a.toNat * 2)

/-- `wrap16(i + b)` (42_index_memory R161). -/
def addI16 (i : Word) (b : Byte) : Word := BitVec.ofNat 16 (i.toNat + b.toNat)

end Sys2Proof.Machine
end

