-- ==== Sys2Proof/Machine/Flags.lean ====
section
/-! DEFINITION. Every flag computation of the spec, and the write of `VF`, which comes last (10_state R21, 41_alu R143). -/

namespace Sys2Proof.Machine

/-- A flag as the byte VF receives, 0 or 1. -/
def flagByte (c : Bool) : Byte := if c then 1 else 0

/-- `VF <- flag`. -/
def State.setFlag (s : State) (c : Bool) : State := s.setReg vF (flagByte c)

/-- The primary result to `V[x]`, then the flag to `VF`: for `x = F` the flag wins (41_alu R143). -/
def State.setRegFlag (s : State) (x : Ix) (result : Byte) (c : Bool) : State := (s.setReg x result).setFlag c

/-- ADD's carry: the 9-bit sum exceeds 255 (41_alu R136). -/
def carryFlag (a b : Byte) : Bool := decide (a.toNat + b.toNat > 255)

/-- SUB's and SUBN's flag for `a - b`: 1 means no borrow (41_alu R137, R139; 90_conflicts C2). -/
def noBorrowFlag (a b : Byte) : Bool := decide (a.toNat ≥ b.toNat)

/-- SHR's flag: the bit shifted out (41_alu R138). -/
def shrFlag (a : Byte) : Bool := a.getLsbD 0

/-- SHL's flag: the bit shifted out (41_alu R140). -/
def shlFlag (a : Byte) : Bool := a.getLsbD 7

/-- ADD I's flag: the unwrapped sum exceeds 0xFFF (42_index_memory R161, D4). -/
def addIFlag (i : Word) (b : Byte) : Bool := decide (i.toNat + b.toNat > 0xFFF)

end Sys2Proof.Machine
end

