-- ==== Sys2Proof/Machine/Alu.lean ====
section
/-! DEFINITION. The meanings of 41_alu. -/

namespace Sys2Proof.Machine

/-- LD Vx, NN (41_alu R130). -/
def execLdImm (x : Ix) (nn : Byte) (s : State) : Host.Outcome State Fault Refusal := .next (s.setReg x nn)

/-- ADD Vx, NN (41_alu R131): no flag. -/
def execAddImm (x : Ix) (nn : Byte) (s : State) : Host.Outcome State Fault Refusal :=
  .next (s.setReg x (add8 (s.reg x) nn))

/-- LD Vx, Vy (41_alu R132). -/
def execLdReg (x y : Ix) (s : State) : Host.Outcome State Fault Refusal := .next (s.setReg x (s.reg y))

/-- OR Vx, Vy (41_alu R133). -/
def execOr (x y : Ix) (s : State) : Host.Outcome State Fault Refusal := .next (s.setReg x (s.reg x ||| s.reg y))

/-- AND Vx, Vy (41_alu R134). -/
def execAnd (x y : Ix) (s : State) : Host.Outcome State Fault Refusal := .next (s.setReg x (s.reg x &&& s.reg y))

/-- XOR Vx, Vy (41_alu R135). -/
def execXor (x y : Ix) (s : State) : Host.Outcome State Fault Refusal := .next (s.setReg x (s.reg x ^^^ s.reg y))

/-- ADD Vx, Vy (41_alu R136). -/
def execAddReg (x y : Ix) (s : State) : Host.Outcome State Fault Refusal :=
  .next (s.setRegFlag x (add8 (s.reg x) (s.reg y)) (carryFlag (s.reg x) (s.reg y)))

/-- SUB Vx, Vy (41_alu R137). -/
def execSub (x y : Ix) (s : State) : Host.Outcome State Fault Refusal :=
  .next (s.setRegFlag x (sub8 (s.reg x) (s.reg y)) (noBorrowFlag (s.reg x) (s.reg y)))

/-- SHR Vx (41_alu R138): `y` is ignored. -/
def execShr (x : Ix) (s : State) : Host.Outcome State Fault Refusal :=
  .next (s.setRegFlag x (shr8 (s.reg x)) (shrFlag (s.reg x)))

/-- SUBN Vx, Vy (41_alu R139). -/
def execSubn (x y : Ix) (s : State) : Host.Outcome State Fault Refusal :=
  .next (s.setRegFlag x (sub8 (s.reg y) (s.reg x)) (noBorrowFlag (s.reg y) (s.reg x)))

/-- SHL Vx (41_alu R140): `y` is ignored. -/
def execShl (x : Ix) (s : State) : Host.Outcome State Fault Refusal :=
  .next (s.setRegFlag x (shl8 (s.reg x)) (shlFlag (s.reg x)))

/-- RND Vx, NN (41_alu R141): the draw is the free value of `Config.drawByte` at this draw's number (log 9). -/
def execRnd (x : Ix) (nn : Byte) (s : State) : Host.Outcome State Fault Refusal :=
  .next { s.setReg x (Config.drawByte s.draws &&& nn) with draws := s.draws + 1 }

end Sys2Proof.Machine
end

