-- ==== Sys2Proof/Machine/Control.lean ====
section
/-! DEFINITION. The meanings of 40_control. Each is `Execute(op)`: it starts after the step's fetch and pc advance (00_scope R16). -/

namespace Sys2Proof.Machine

/-- EOF (40_control R102). -/
def execEof (s : State) : Host.Outcome State Fault Refusal := .next (s.setStatus .halted)

/-- RET (40_control R105): the last entry is the top of the stack. -/
def execRet (s : State) : Host.Outcome State Fault Refusal :=
  match s.stack.getLast? with
  | none => raise (.stackUnderflow s.fetchedAt) s
  | some top => .next { s with pc := top, stack := s.stack.dropLast }

/-- JP NNN (40_control R106). -/
def execJp (nnn : Addr12) (s : State) : Host.Outcome State Fault Refusal := .next (s.setPc (zextAddr nnn))

/-- CALL NNN (40_control R108): pushes the advanced pc. -/
def execCall (nnn : Addr12) (s : State) : Host.Outcome State Fault Refusal :=
  if s.stack.length ≥ Config.stackDepth then raise (.stackOverflow s.fetchedAt) s
  else .next ((s.push s.pc).setPc (zextAddr nnn))

/-- SE Vx, NN (40_control R110). -/
def execSeImm (x : Ix) (nn : Byte) (s : State) : Host.Outcome State Fault Refusal := .next (s.skipIf (s.reg x == nn))

/-- SNE Vx, NN (40_control R111). -/
def execSneImm (x : Ix) (nn : Byte) (s : State) : Host.Outcome State Fault Refusal := .next (s.skipIf (s.reg x != nn))

/-- SE Vx, Vy (40_control R112). -/
def execSeReg (x y : Ix) (s : State) : Host.Outcome State Fault Refusal := .next (s.skipIf (s.reg x == s.reg y))

/-- SNE Vx, Vy (40_control R113). -/
def execSneReg (x y : Ix) (s : State) : Host.Outcome State Fault Refusal := .next (s.skipIf (s.reg x != s.reg y))

/-- JP V0, NNN (40_control R114): no mask to 12 bits. -/
def execJpV0 (nnn : Addr12) (s : State) : Host.Outcome State Fault Refusal :=
  .next (s.setPc (zextByte (s.reg 0) + zextAddr nnn))

/-- UNKNOWN (40_control R125). -/
def execUnknown (word : Word) (s : State) : Host.Outcome State Fault Refusal :=
  raise (.unknownInstruction s.fetchedAt word) s

end Sys2Proof.Machine
end

