-- ==== Sys2Proof/Machine/Display.lean ====
section
/-! DEFINITION. The meanings of 43_display. -/

namespace Sys2Proof.Machine

/-- CLS (43_display R180, R185, R186). -/
def execCls (s : State) : Host.Outcome State Fault Refusal := .next (s.display clearedFb)

/-- DRW Vx, Vy, N (43_display R181): the rows are read and the coordinates taken before VF is written, which comes last. -/
def execDrw (x y n : Ix) (s : State) : Host.Outcome State Fault Refusal :=
  withBytes s s.transferAddr n.val fun rows =>
    let drawn := draw s.fb (s.reg x).toNat (s.reg y).toNat rows
    .next ((s.display drawn.1).setFlag drawn.2)

end Sys2Proof.Machine
end

