-- ==== Sys2Proof/Machine/IndexMemory.lean ====
section
/-! DEFINITION. The meanings of 42_index_memory. -/

namespace Sys2Proof.Machine

/-- LD I, NNN (42_index_memory R160). -/
def execLdI (nnn : Addr12) (s : State) : Host.Outcome State Fault Refusal := .next (s.setI (zextAddr nnn))

/-- ADD I, Vx (42_index_memory R161): both read the old VF when `x = F`; the flag is written last. -/
def execAddI (x : Ix) (s : State) : Host.Outcome State Fault Refusal :=
  .next ((s.setI (addI16 s.i (s.reg x))).setFlag (addIFlag s.i (s.reg x)))

/-- LD F, Vx (42_index_memory R163). -/
def execLdF (x : Ix) (s : State) : Host.Outcome State Fault Refusal :=
  match hexValue (s.reg x) with
  | none => raise (.invalidDigit s.fetchedAt (s.reg x)) s
  | some _ => .next (s.setI (glyphAddress (s.reg x)))

/-- LD B, Vx (42_index_memory R164). -/
def execLdB (x : Ix) (s : State) : Host.Outcome State Fault Refusal :=
  storeBytes s s.transferAddr (bcdDigits (s.reg x))

/-- LD [I], Vx (42_index_memory R165): I is unchanged (D22). -/
def execLdMemFromRegs (x : Ix) (s : State) : Host.Outcome State Fault Refusal :=
  storeBytes s s.transferAddr (s.regsUpTo x)

/-- LD Vx, [I] (42_index_memory R166): I is unchanged (D22). -/
def execLdRegsFromMem (x : Ix) (s : State) : Host.Outcome State Fault Refusal :=
  withBytes s s.transferAddr (x.val + 1) fun bytes => .next { s with v := loadRegs s.v 0 bytes }

end Sys2Proof.Machine
end

