-- ==== Sys2Proof/Machine/TimersInput.lean ====
section
/-! DEFINITION. The meanings of 44_timers_input. -/

namespace Sys2Proof.Machine

/-- LD Vx, DT (44_timers_input R200). -/
def execLdVxDT (x : Ix) (s : State) : Host.Outcome State Fault Refusal := .next (s.setReg x s.dt)

/-- LD DT, Vx (44_timers_input R201). -/
def execLdDTVx (x : Ix) (s : State) : Host.Outcome State Fault Refusal := .next { s with dt := s.reg x }

/-- LD ST, Vx (44_timers_input R202). -/
def execLdSTVx (x : Ix) (s : State) : Host.Outcome State Fault Refusal := .next { s with st := s.reg x }

/-- The key test of SKP and SKNP: skip when the key named by `V[x]` is held as `held` says, InvalidKey above 15 (D20). -/
def skipOnKey (x : Ix) (held : Bool) (s : State) : Host.Outcome State Fault Refusal :=
  match hexValue (s.reg x) with
  | none => raise (.invalidKey s.fetchedAt (s.reg x)) s
  | some k => .next (s.skipIf (s.keyHeld[k.val] == held))

/-- SKP Vx (44_timers_input R203). -/
def execSkp (x : Ix) (s : State) : Host.Outcome State Fault Refusal := skipOnKey x true s

/-- SKNP Vx (44_timers_input R204). -/
def execSknp (x : Ix) (s : State) : Host.Outcome State Fault Refusal := skipOnKey x false s

/-- LD Vx, K (44_timers_input R206): the wait begins; the key press of R207 ends it. -/
def execLdVxK (x : Ix) (s : State) : Host.Outcome State Fault Refusal := .next (s.setStatus (.waitKey x))

end Sys2Proof.Machine
end

