-- ==== Sys2Proof/Machine/Environment.lean ====
section
/-! DEFINITION. The agents other than the CPU: the timers' ticks, the host's key events and display readout, where they land, and
the outputs the host sees. -/

namespace Sys2Proof.Machine

/-- `Tick` of a timer's value: down by exactly 1, never below 0 (44_timers_input R210). -/
def tick (t : Byte) : Byte := if t.toNat > 0 then t - 1 else t

/-- `key_held[k] <- b`. -/
def State.setKey (s : State) (k : Ix) (b : Bool) : State := { s with keyHeld := s.keyHeld.set k.val b }

/-- The end of a wait for a key by a press of `k` (44_timers_input R207). -/
def State.wakeOn (s : State) (k : Ix) : State :=
  match s.status with
  | .waitKey x => (s.setReg x (BitVec.ofNat 8 k.val)).setStatus .running
  | _ => s

/-- The display readout: the grid the host receives, and the state with `fb_dirty` cleared (43_display R187). -/
def State.readout (s : State) : Framebuffer × State := (s.fb, { s with fbDirty := false })

/-- The sound output the core presents (60_exceptions R252, D25). -/
def State.tone (s : State) : Bool := s.st != 0

/-- What one event does (44_timers_input R207, R210; 43_display R187). -/
def Event.deliver (s : State) : Event → State
  | .tickDT => { s with dt := tick s.dt }
  | .tickST => { s with st := tick s.st }
  | .keyDown k => (s.setKey k true).wakeOn k
  | .keyUp k => s.setKey k false
  | .readout => s.readout.2

/-- The events due at the next boundary: the group `schedule` gives, and past its end the group of the free schedule
(00_scope R9; log 8). -/
def State.dueEvents (s : State) : List Event :=
  match s.schedule with
  | [] => Config.scheduledEvents s.boundary
  | group :: _ => group

/-- Whether the CPU waits for a key press (10_state R29). -/
def Status.waits : Status → Bool
  | .waitKey _ => true
  | .running | .halted | .faulted _ => false

/-- The state once a group of events has landed, one after the other. It is `group.foldl Event.deliver s` (`land_eq_foldl`),
written field by field, so that it shows, and a free group leaves evaluable, what no event changes: all but the timers, the keys
and the dirty flag, and in a wait the registers and the status too (60_exceptions R254). -/
def State.land (s : State) (group : List Event) : State :=
  let t := group.foldl Event.deliver s
  { s with
    dt := t.dt, st := t.st, keyHeld := t.keyHeld, fbDirty := t.fbDirty
    v := if s.status.waits then t.v else s.v
    status := if s.status.waits then t.status else s.status }

/-- The boundary's group is taken from the schedule. -/
def State.passBoundary (s : State) : State := { s with schedule := s.schedule.tail, boundary := s.boundary + 1 }

/-- One boundary between two CPU steps: the due events land, in their order (20_memory R62; log 8). -/
def State.landEvents (s : State) : State := s.passBoundary.land s.dueEvents

end Sys2Proof.Machine
end

