-- ==== Sys2Proof/Machine/Step.lean ====
section
/-! DEFINITION. One step: the boundary's events land, then the CPU's one transition (40_control R101; log 8). -/

namespace Sys2Proof.Machine

/-- `Step()`, the CPU agent's one transition (40_control R101): a fetch fault leaves `pc` where it was (R100), an
instruction executes with `pc` advanced by 2, and a CPU that is not Running does nothing. -/
def cpuStep (s : State) : Host.Outcome State Fault Refusal :=
  match s.status with
  | .running =>
    match fetch s with
    | .ok i => exec i s.advancePc
    | .error f => raise f s
  | _ => idle s

/-- One step of the machine: every event falls between two CPU steps (20_memory R62). -/
def step (s : State) : Host.Outcome State Fault Refusal := cpuStep s.landEvents

/-- The state with an instruction of the opcode table stored where the next step fetches: its two bytes at `fetchPlace`,
`pc` there, the CPU running, and no event at the boundary before, so that the step is that instruction and nothing else
(log 26). -/
def State.withFetchWord (s : State) (nbits w : Nat) : State :=
  let a := fetchPlace s
  { s with
    status := .running
    pc := a
    schedule := [] :: s.schedule
    mem := writeBytes s.mem a.toNat [(tableBytes nbits w).1, (tableBytes nbits w).2] }

end Sys2Proof.Machine
end

