-- ==== Sys2Proof/Machine/Launch.lean ====
section
/-! DEFINITION. Reset as the spec gives it: the launch with a ROM, over the parameters the spec leaves open (00_scope R9;
70_reset_and_hazards R260 to R262). -/

namespace Sys2Proof.Machine

/-- The named parameters of 00_scope R9 that are fixed per launch. -/
structure LaunchParams where
  /-- `FONT`, 80 bytes. -/
  font : Vector Byte Config.fontLen
  /-- `RESET_V`. -/
  v : Regs
  /-- `RESET_I`. -/
  i : Word
  /-- `RESET_DT`. -/
  dt : Byte
  /-- `RESET_ST`. -/
  st : Byte
  /-- `RESET_MEM`: the byte at each address outside the font region (and outside the loaded program). -/
  mem : Nat → Byte
  /-- `RESET_FB`. -/
  fb : Framebuffer
  /-- `RESET_DIRTY`. -/
  dirty : Bool
  /-- `RESET_KEYS`. -/
  keys : Vector Bool 16
  /-- The groups of events given for the first boundaries, of the timer schedule and the host schedule (log 8). -/
  schedule : List (List Event)
  /-- The number of the first boundary: which part of the free, endless `Config.scheduledEvents` is this launch's (log 8). -/
  boundary : Nat

/-- A load failure: the machine is never started (60_exceptions R226). -/
inductive LoadError where
  /-- The ROM is longer than 3584 bytes. -/
  | programTooLarge
  deriving DecidableEq, Repr

/-- `load_program(bytes)` (70_reset_and_hazards R261). -/
def loadProgram (m : Memory) (rom : List Byte) : Except LoadError Memory :=
  match memWrite m Config.progBase rom with
  | some m' => .ok m'
  | none => .error .programTooLarge

/-- Step 1 of R260: the font in its region, `RESET_MEM` elsewhere. -/
def constructedByte (p : LaunchParams) (a : Nat) : Byte :=
  if h : Config.fontBase ≤ a ∧ a - Config.fontBase < Config.fontLen then p.font[a - Config.fontBase] else p.mem a

/-- The reset sequence of 70_reset_and_hazards R260. -/
def launch (p : LaunchParams) (rom : List Byte) : Except LoadError State :=
  match loadProgram (memoryOf (constructedByte p)) rom with
  | .error e => .error e
  | .ok m => .ok
    { v := p.v, i := p.i, pc := BitVec.ofNat 16 Config.progBase, stack := [], dt := p.dt, st := p.st, status := .running,
      mem := m, fb := p.fb, fbDirty := p.dirty, keyHeld := p.keys, draws := 0, schedule := p.schedule,
      boundary := p.boundary }

/-- The default `FONT` as a vector (20_memory R57). -/
def defaultFontVector : Vector Byte Config.fontLen := ⟨defaultFont.toArray, rfl⟩

/-- The parameters of `CleanReset`, the default font with them (70_reset_and_hazards R262), and no group of events
given, so that the schedule is the free one from boundary 0 on. -/
def cleanParams : LaunchParams where
  font := defaultFontVector
  v := Vector.replicate 16 0
  i := 0
  dt := 0
  st := 0
  mem := fun _ => 0
  fb := clearedFb
  dirty := false
  keys := Vector.replicate 16 false
  schedule := []
  boundary := 0

end Sys2Proof.Machine
end

