-- ==== Sys2Proof/Safety.lean ====
section
/-! DEFINITION. The terms claims about the machine use: what may change in a step and what may not, how a run ends, the invariant
of reachable states, and the closed forms the spec's prose gives for loops. -/

namespace Sys2Proof.Machine

/-- The normal end of a run (40_control R104). A `faulted` state is never one (60_exceptions R223). -/
def State.ended (s : State) : Prop := s.status = .halted

/-- A run is safe as long as no fatal condition has been met (60_exceptions R220). -/
def State.safe (s : State) : Prop := ∀ f, s.status ≠ .faulted f

/-- The observable pieces of the state: one for each register, byte of memory, pixel, key and so on. -/
inductive Component where
  | reg (x : Ix)
  | i
  | pc
  | stack
  | dt
  | st
  | status
  | byte (a : Nat)
  | pixel (x y : Nat)
  | fbDirty
  | key (k : Ix)
  | draws
  | schedule
  | boundary

/-- The two states agree on a component. -/
def SameOn (s t : State) : Component → Prop
  | .reg x => t.reg x = s.reg x
  | .i => t.i = s.i
  | .pc => t.pc = s.pc
  | .stack => t.stack = s.stack
  | .dt => t.dt = s.dt
  | .st => t.st = s.st
  | .status => t.status = s.status
  | .byte a => readByte t.mem a = readByte s.mem a
  | .pixel x y => pixel t.fb x y = pixel s.fb x y
  | .fbDirty => t.fbDirty = s.fbDirty
  | .key k => t.keyHeld[k.val] = s.keyHeld[k.val]
  | .draws => t.draws = s.draws
  | .schedule => t.schedule = s.schedule
  | .boundary => t.boundary = s.boundary

/-- The frame: every component is as before but for those `written` names. -/
def UnchangedBut (written : Component → Prop) (s t : State) : Prop := ∀ c, ¬ written c → SameOn s t c

/-- What the timers and the host can change at a boundary at which no wait ends (60_exceptions R250, R254): the timers, the
key state, the dirty flag, and the schedule and boundary number that have moved on. -/
def EnvironmentOwned : Component → Prop
  | .dt | .st | .fbDirty | .key _ | .schedule | .boundary => True
  | _ => False

/-- The general registers an instruction's `Execute` may write (the "writes" column of 10_state R22; LD Vx, K writes its
register only when the wait ends, so not in `Execute`). -/
def writtenRegs : Instr → List Ix
  | .ldImm x _ | .addImm x _ | .ldReg x _ | .orReg x _ | .andReg x _ | .xorReg x _ | .rnd x _ | .ldVxDT x => [x]
  | .addReg x _ | .sub x _ | .shr x _ | .subn x _ | .shl x _ => [x, vF]
  | .drw _ _ _ | .addI _ => [vF]
  | .ldRegsFromMem x => (List.finRange 16).filter fun r => r ≤ x
  | .eof | .cls | .ret | .jp _ | .call _ | .seImm _ _ | .sneImm _ _ | .seReg _ _ | .sneReg _ _ | .ldI _ | .jpV0 _
  | .skp _ | .sknp _ | .ldVxK _ | .ldDTVx _ | .ldSTVx _ | .ldF _ | .ldB _ | .ldMemFromRegs _ | .unknown _ => []

/-- The address a fault records as the faulting instruction's (60_exceptions R220, R222). -/
def Fault.site : Fault → Word
  | .outOfBounds a _ _ | .stackUnderflow a | .stackOverflow a | .unknownInstruction a _ | .invalidDigit a _
  | .invalidKey a _ => a

/-- The sprite bit that falls on pixel (px, py) when `rows` is drawn at (x0, y0): column `px - x0` of row `py - y0`, most
significant bit first; outside the sprite there is none (43_display R182, R183). -/
def spriteBit (rows : List Byte) (x0 y0 px py : Nat) : Bool :=
  decide (x0 ≤ px ∧ px < x0 + 8 ∧ y0 ≤ py ∧ py < y0 + rows.length) &&
    (rows.getD (py - y0) 0).getLsbD (7 - (px - x0))

/-- The CPU runs the bytes `f` at its `pc`: a sentinel byte halts it, and any other two bytes in bounds are executed as the
instruction their big-endian word decodes to (40_control R100 to R102). -/
def RunsBytes (s : State) (f : Nat → Byte) : Prop :=
  (s.pc.toNat < 4096 → f s.pc.toNat = 0x0A → cpuStep s = .next { s with pc := s.pc + 2, status := .halted }) ∧
  (s.pc.toNat + 1 < 4096 → f s.pc.toNat ≠ 0x0A →
    cpuStep s = exec (decodeWord (f s.pc.toNat ++ f (s.pc.toNat + 1))) { s with pc := s.pc + 2 })

/-- What holds of every reachable state: memory in its canonical form, at most 16 return addresses (10_state R27), none
above 4096, and `pc ≤ 0x10FE` (10_state R25). -/
structure Inv (s : State) : Prop where
  memory : Memory.wf s.mem = true
  depth : s.stack.length ≤ Config.stackDepth
  returns : ∀ a ∈ s.stack, a.toNat ≤ Config.memSize
  pc : s.pc.toNat ≤ 0x10FE

end Sys2Proof.Machine
end

