-- ==== Sys2Proof/Certificates/Slice0/Obligations.lean ====
section
/-! DEFINITION. The statements for the provers, from the numbered rules of spec/. `exec i s` is `Execute(op)`: in `s` the program
counter is already advanced (00_scope R16), so the executing instruction's own address is `s.pc - 2`. -/

open Sys2Proof Sys2Proof.Machine

/-! ## Encoding -/

/-- Words written out from the patterns of 30_encoding R85, each read as its instruction: at least one for each of the sixteen
top nibbles, the families of R84. The patterns are general knowledge of the spec's own (its decision D1, log 1, PRESUMED). -/
def Obligations.DecodeReadsWrittenWords : Prop :=
  decodeTableWord 8 0x0A = some .eof ∧ decodeTableWord 16 0x0AFF = some .eof ∧
  decodeTableWord 16 0x00E0 = some .cls ∧ decodeTableWord 16 0x00EE = some .ret ∧
  decodeTableWord 16 0x1ABC = some (.jp 0xABC) ∧ decodeTableWord 16 0x2DEF = some (.call 0xDEF) ∧
  decodeTableWord 16 0x3A5C = some (.seImm 0xA 0x5C) ∧ decodeTableWord 16 0x4B6D = some (.sneImm 0xB 0x6D) ∧
  decodeTableWord 16 0x5AB0 = some (.seReg 0xA 0xB) ∧ decodeTableWord 16 0x5AB1 = some (.unknown 0x5AB1) ∧
  decodeTableWord 16 0x6C7E = some (.ldImm 0xC 0x7E) ∧ decodeTableWord 16 0x7D8F = some (.addImm 0xD 0x8F) ∧
  decodeTableWord 16 0x8125 = some (.sub 1 2) ∧ decodeTableWord 16 0x9CD0 = some (.sneReg 0xC 0xD) ∧
  decodeTableWord 16 0xA123 = some (.ldI 0x123) ∧ decodeTableWord 16 0xB456 = some (.jpV0 0x456) ∧
  decodeTableWord 16 0xCE91 = some (.rnd 0xE 0x91) ∧ decodeTableWord 16 0xD3B7 = some (.drw 3 0xB 7) ∧
  decodeTableWord 16 0xE1A1 = some (.sknp 1) ∧ decodeTableWord 16 0xFA33 = some (.ldB 0xA)

/-- Decoding the bytes of any well-formed instruction, whatever bytes follow, gives that instruction and those bytes
(30_encoding R80, R85): every operand at every value its field admits. -/
def Obligations.DecodeOfEncodeIsIdentity : Prop :=
  ∀ (i : Instr) (rest : List Byte), i.wellFormed = true → decodeBytes (encode i ++ rest) = .ok (i, rest)

/-- Where bytes decode, they are the encoding of a well-formed instruction and the bytes left over (30_encoding R80, R89):
no two byte strings are read as one instruction. -/
def Obligations.EncodeOfDecodeIsIdentity : Prop :=
  ∀ (bytes rest : List Byte) (i : Instr), decodeBytes bytes = .ok (i, rest) →
    i.wellFormed = true ∧ encode i ++ rest = bytes

/-- A word that matches no row of the opcode map (30_encoding R85) decodes to UNKNOWN, executing which is fatal; those words are
the ones R86 writes out, and every other word decodes to another operation (the spec's decisions D1, D13, D14, logs 1, 14). -/
def Obligations.WordsOfNoRowAreUnknownAndFatal : Prop :=
  ∀ w : Word,
    ((∀ row ∈ opcodeRows, matchesRow w row = false) → decodeWord w = .unknown w ∧ isUnknownWord w = true ∧
      ∀ s : State, ∃ t, exec (decodeWord w) s = .next t ∧ t.status = .faulted (.unknownInstruction (s.pc - 2) w)) ∧
    ((∃ row ∈ opcodeRows, matchesRow w row = true) → isUnknownWord w = false ∧ ∀ u : Word, decodeWord w ≠ .unknown u)

/-- No word matches two rows of the opcode map (30_encoding R85, the spec's own derivation). -/
def Obligations.OpcodeRowsAreDisjoint : Prop :=
  opcodeRows.Pairwise fun r r' => ∀ w : Word, ¬ (matchesRow w r = true ∧ matchesRow w r' = true)

/-- Outside the top nibbles 0, 8, E, F the decoded fields are the nibbles and bytes taken algebraically (30_encoding R92), and the
top nibble fixes the operation. The operation of each top nibble (R85) and the field positions (R81) are general knowledge of
the spec's own (its decision D1, log 1, PRESUMED). -/
def Obligations.DecodedFieldsAreTheWordsSubfields : Prop :=
  ∀ w : Word, isUnknownWord w = false →
    let X : Ix := Fin.ofNat 16 (w.toNat / 256)
    let Y : Ix := Fin.ofNat 16 (w.toNat / 16)
    let N : Ix := Fin.ofNat 16 w.toNat
    let NN : Byte := BitVec.ofNat 8 w.toNat
    let NNN : Addr12 := BitVec.ofNat 12 w.toNat
    (w.toNat / 4096 = 0x1 → decodeWord w = .jp NNN) ∧ (w.toNat / 4096 = 0x2 → decodeWord w = .call NNN) ∧
    (w.toNat / 4096 = 0x3 → decodeWord w = .seImm X NN) ∧ (w.toNat / 4096 = 0x4 → decodeWord w = .sneImm X NN) ∧
    (w.toNat / 4096 = 0x5 → decodeWord w = .seReg X Y) ∧ (w.toNat / 4096 = 0x6 → decodeWord w = .ldImm X NN) ∧
    (w.toNat / 4096 = 0x7 → decodeWord w = .addImm X NN) ∧ (w.toNat / 4096 = 0x9 → decodeWord w = .sneReg X Y) ∧
    (w.toNat / 4096 = 0xA → decodeWord w = .ldI NNN) ∧ (w.toNat / 4096 = 0xB → decodeWord w = .jpV0 NNN) ∧
    (w.toNat / 4096 = 0xC → decodeWord w = .rnd X NN) ∧ (w.toNat / 4096 = 0xD → decodeWord w = .drw X Y N)

/-! ## The step -/

/-- The CPU's one transition (40_control R100, R101): a Running CPU at a sentinel byte executes EOF, and at any other two bytes
in bounds the instruction their big-endian word decodes to, with `pc` advanced by 2; a byte out of bounds raises OutOfBounds
with `pc` where it was; a CPU in any other status has no transition of its own. That the advance is made before EOF too is the
spec's decision D12 (log 13, DEDUCED), and that a CPU which has no step answers its own state as a next state is the model's
choice (log 10, DESIGN CHOICE). -/
def Obligations.CpuStepFetchesAdvancesAndExecutes : Prop :=
  ∀ s : State,
    (s.status = .running → s.pc.toNat < 4096 → readByte s.mem s.pc.toNat = 0x0A →
      cpuStep s = exec .eof { s with pc := s.pc + 2 }) ∧
    (s.status = .running → s.pc.toNat + 1 < 4096 → readByte s.mem s.pc.toNat ≠ 0x0A →
      cpuStep s = exec (decodeWord (readByte s.mem s.pc.toNat ++ readByte s.mem (s.pc.toNat + 1))) { s with pc := s.pc + 2 }) ∧
    (s.status = .running → s.pc.toNat ≥ 4096 →
      cpuStep s = .next { s with status := .faulted (.outOfBounds s.pc s.pc.toNat 1) }) ∧
    (s.status = .running → s.pc.toNat = 4095 → readByte s.mem 4095 ≠ 0x0A →
      cpuStep s = .next { s with status := .faulted (.outOfBounds s.pc 4096 1) }) ∧
    (s.status ≠ .running → cpuStep s = .next s)

/-- A step runs the decoded instruction: once the boundary's events have landed, where the bytes at `pc` decode to an
instruction, the step is that instruction's `exec` with `pc` advanced by 2 (40_control R101). That the events land first,
from the state's schedule, is the model's choice, log 8. -/
def Obligations.StepRunsTheDecodedInstruction : Prop :=
  ∀ (s u : State) (n : Nat) (i : Instr) (rest : List Byte), s.landEvents = u → u.status = .running →
    u.pc.toNat + n ≤ 4096 → decodeBytes (bytesAt u.mem u.pc.toNat n) = .ok (i, rest) →
    step s = exec i { u with pc := u.pc + 2 }

/-- A step in Halted leaves it Halted with nothing changed but what the timers and the host own, and nothing of the machine's at
all where no event is due; Halted is entered only from Running, at the sentinel (40_control R104). That a step lands the
boundary's events in every status, and that the schedule and the boundary's number move on, is the model's choice, log 8. -/
def Obligations.HaltedIsFinal : Prop :=
  (∀ s : State, s.status = .halted →
    (∃ t, step s = .next t ∧ t.status = .halted ∧ UnchangedBut EnvironmentOwned s t) ∧
    (s.dueEvents = [] → step s = .next { s with schedule := s.schedule.tail, boundary := s.boundary + 1 })) ∧
  (∀ s t : State, step s = .next t → t.status = .halted → s.status ≠ .halted →
    s.landEvents.status = .running ∧ s.pc.toNat < 4096 ∧ readByte s.mem s.pc.toNat = 0x0A)

/-- A step in Faulted leaves the same fault recorded and changes nothing but what the timers and the host own; no instruction
runs (60_exceptions R223). That such a step is a next state is the model's choice, log 10. -/
def Obligations.FaultedIsTerminal : Prop :=
  ∀ (s : State) (f : Fault), s.status = .faulted f →
    ∃ t, step s = .next t ∧ t.status = .faulted f ∧ UnchangedBut EnvironmentOwned s t

/-- LD Vx, K begins the wait and does nothing else; while no press lands, whatever keys are held and whatever else happens,
the CPU stays in the wait and no register, memory byte or pc changes (44_timers_input R206). That a key already held does not
end it is the spec's decision D21 (log 20, DEDUCED); that what lands in a step are the events due by the state's schedule,
and that a waiting CPU's step is a next state, are the model's choices (logs 8 and 10, DESIGN CHOICE). -/
def Obligations.KeyWaitHoldsUntilAPress : Prop :=
  (∀ (x : Ix) (s : State), ∃ t, exec (.ldVxK x) s = .next t ∧ t.status = .waitKey x ∧
    UnchangedBut (fun c => c = .status) s t) ∧
  (∀ (x : Ix) (s : State), s.status = .waitKey x → (∀ e ∈ s.dueEvents, ∀ k, e ≠ .keyDown k) →
    ∃ t, step s = .next t ∧ t.status = .waitKey x ∧ UnchangedBut EnvironmentOwned s t)

/-- A press sets the key and, in a wait, writes it to the waiting register and ends the wait; a release clears the key
(44_timers_input R207). That any press which comes in the wait ends it, a repeat of a held key included, is the spec's decision
D21 (log 20, DEDUCED). -/
def Obligations.KeyEventsDriveKeysAndEndTheWait : Prop :=
  ∀ (s : State) (k : Ix),
    (∀ x, s.status = .waitKey x →
      ((Event.keyDown k).deliver s).reg x = BitVec.ofNat 8 k.val ∧ ((Event.keyDown k).deliver s).status = .running ∧
      ((Event.keyDown k).deliver s).keyHeld[k.val] = true ∧
      UnchangedBut (fun c => c = .reg x ∨ c = .status ∨ c = .key k) s ((Event.keyDown k).deliver s)) ∧
    ((∀ x, s.status ≠ .waitKey x) → ((Event.keyDown k).deliver s).keyHeld[k.val] = true ∧
      UnchangedBut (fun c => c = .key k) s ((Event.keyDown k).deliver s)) ∧
    (((Event.keyUp k).deliver s).keyHeld[k.val] = false ∧
      UnchangedBut (fun c => c = .key k) s ((Event.keyUp k).deliver s))

/-- A tick (44_timers_input R210) takes exactly 1 off its own timer if it is above 0, in every status, and changes nothing
else; the timers are independent. -/
def Obligations.TickTakesOneOffItsOwnTimer : Prop :=
  ∀ s : State,
    ((Event.tickDT.deliver s).dt.toNat = s.dt.toNat - 1 ∧ UnchangedBut (fun c => c = .dt) s (Event.tickDT.deliver s)) ∧
    ((Event.tickST.deliver s).st.toNat = s.st.toNat - 1 ∧ UnchangedBut (fun c => c = .st) s (Event.tickST.deliver s))

/-- After any run of ticks and other events with no CPU step between, each timer is down by the number of its own ticks and
never below 0 (44_timers_input R210; 95_test_vectors L1-6), and the tone is on exactly while ST has ticks left (60_exceptions
R252, the spec's decision D25, log 24). -/
def Obligations.TimersCountTheirTicksDown : Prop :=
  ∀ (events : List Event) (s : State),
    (events.foldl Event.deliver s).dt.toNat = s.dt.toNat - events.count .tickDT ∧
    (events.foldl Event.deliver s).st.toNat = s.st.toNat - events.count .tickST ∧
    ((events.foldl Event.deliver s).tone = true ↔ events.count .tickST < s.st.toNat)

/-- The readout (43_display R187) hands out the whole framebuffer, clears `fb_dirty` and changes nothing else. -/
def Obligations.ReadoutClearsDirtyOnly : Prop :=
  ∀ s : State, s.readout.1 = s.fb ∧ (Event.readout.deliver s).fbDirty = false ∧
    UnchangedBut (fun c => c = .fbDirty) s (Event.readout.deliver s)

/-! ## 40_control -/

/-- EOF halts and changes nothing else; the CPU at a sentinel byte halts with `pc` advanced by 2, whatever follows the byte, at
the last address too (40_control R102; that the advance is made is the spec's decision D12, log 13). -/
def Obligations.SentinelHalts : Prop :=
  (∀ s : State, ∃ t, exec .eof s = .next t ∧ t.status = .halted ∧ UnchangedBut (fun c => c = .status) s t) ∧
  (∀ s : State, s.status = .running → s.pc.toNat < 4096 → readByte s.mem s.pc.toNat = 0x0A →
    cpuStep s = .next { s with pc := s.pc + 2, status := .halted })

/-- 40_control R105: RET pops the top of the stack (its last entry) into `pc`, or records StackUnderflow. -/
def Obligations.RetPopsOrUnderflows : Prop :=
  ∀ s : State,
    (∀ (below : List Word) (top : Word), s.stack = below ++ [top] →
      ∃ t, exec .ret s = .next t ∧ t.pc = top ∧ t.stack = below ∧
        UnchangedBut (fun c => c = .pc ∨ c = .stack) s t) ∧
    (s.stack = [] → ∃ t, exec .ret s = .next t ∧ t.status = .faulted (.stackUnderflow (s.pc - 2)) ∧
      UnchangedBut (fun c => c = .status) s t)

/-- 40_control R106: JP sets `pc` to NNN. -/
def Obligations.JpSetsPc : Prop :=
  ∀ (nnn : Addr12) (s : State), ∃ t, exec (.jp nnn) s = .next t ∧ t.pc.toNat = nnn.toNat ∧
    UnchangedBut (fun c => c = .pc) s t

/-- CALL pushes the advanced `pc` and jumps, or records StackOverflow when 16 entries are held (40_control R108; what the
overflow leaves unchanged is the spec's decision D18, log 18). More than 16 entries are never held (`StepKeepsInvariant`). -/
def Obligations.CallPushesOrOverflows : Prop :=
  ∀ (nnn : Addr12) (s : State),
    (s.stack.length < 16 → ∃ t, exec (.call nnn) s = .next t ∧ t.stack = s.stack ++ [s.pc] ∧ t.pc.toNat = nnn.toNat ∧
      UnchangedBut (fun c => c = .pc ∨ c = .stack) s t) ∧
    (s.stack.length = 16 → ∃ t, exec (.call nnn) s = .next t ∧ t.status = .faulted (.stackOverflow (s.pc - 2)) ∧
      UnchangedBut (fun c => c = .status) s t)

/-- What a CALL pushed, the RET that meets the stack as the CALL left it takes back: `pc` is the CALL's advanced pc and the
stack is as before the CALL (40_control R109). -/
def Obligations.RetMatchesItsCall : Prop :=
  ∀ (nnn : Addr12) (s t u : State), s.stack.length < 16 → exec (.call nnn) s = .next t → u.stack = t.stack →
    ∃ w, exec .ret u = .next w ∧ w.pc = s.pc ∧ w.stack = s.stack

/-- 40_control R110, R111: SE and SNE with an immediate add 2 to `pc` exactly when V[X] is, or is not, NN. -/
def Obligations.SkipsOnImmediate : Prop :=
  ∀ (x : Ix) (nn : Byte) (s : State),
    (∃ t, exec (.seImm x nn) s = .next t ∧ t.pc = (if s.reg x = nn then s.pc + 2 else s.pc) ∧
      UnchangedBut (fun c => c = .pc) s t) ∧
    (∃ t, exec (.sneImm x nn) s = .next t ∧ t.pc = (if s.reg x ≠ nn then s.pc + 2 else s.pc) ∧
      UnchangedBut (fun c => c = .pc) s t)

/-- 40_control R112, R113: SE and SNE of two registers add 2 to `pc` exactly when V[X] is, or is not, V[Y]. -/
def Obligations.SkipsOnRegister : Prop :=
  ∀ (x y : Ix) (s : State),
    (∃ t, exec (.seReg x y) s = .next t ∧ t.pc = (if s.reg x = s.reg y then s.pc + 2 else s.pc) ∧
      UnchangedBut (fun c => c = .pc) s t) ∧
    (∃ t, exec (.sneReg x y) s = .next t ∧ t.pc = (if s.reg x ≠ s.reg y then s.pc + 2 else s.pc) ∧
      UnchangedBut (fun c => c = .pc) s t)

/-- JP V0 sets `pc` to the plain sum V0 + NNN (40_control R114). That the sum is not reduced modulo 4096 is the spec's decision D3
(log 11, DEDUCED). -/
def Obligations.JpV0SetsPcToTheSum : Prop :=
  ∀ (nnn : Addr12) (s : State), ∃ t, exec (.jpV0 nnn) s = .next t ∧ t.pc.toNat = (s.reg 0).toNat + nnn.toNat ∧
    UnchangedBut (fun c => c = .pc) s t

/-- 40_control R125: UNKNOWN records UnknownInstruction with its address and word, and changes nothing else. -/
def Obligations.UnknownRecordsItsFault : Prop :=
  ∀ (w : Word) (s : State), ∃ t, exec (.unknown w) s = .next t ∧
    t.status = .faulted (.unknownInstruction (s.pc - 2) w) ∧ UnchangedBut (fun c => c = .status) s t

/-! ## 41_alu -/

/-- 41_alu R130: LD sets V[X] to NN. -/
def Obligations.LdImmediateSetsRegister : Prop :=
  ∀ (x : Ix) (nn : Byte) (s : State), ∃ t, exec (.ldImm x nn) s = .next t ∧ t.reg x = nn ∧
    UnchangedBut (fun c => c = .reg x) s t

/-- ADD adds NN modulo 256 with no flag (41_alu R131: general knowledge of the spec's, and its decision D15; logs 1, 15). -/
def Obligations.AddImmediateWrapsWithNoFlag : Prop :=
  ∀ (x : Ix) (nn : Byte) (s : State), ∃ t, exec (.addImm x nn) s = .next t ∧
    (t.reg x).toNat = ((s.reg x).toNat + nn.toNat) % 256 ∧ UnchangedBut (fun c => c = .reg x) s t

/-- LD copies V[Y], and OR, AND, XOR combine each bit of V[X] and V[Y] (41_alu R132 to R135). That LD Vx, Vy exists and copies
V[Y] is general knowledge of the spec's own (R132, log 1, PRESUMED); that none of the four writes a flag is the spec's decision
D15 (log 15, DEDUCED). -/
def Obligations.CopyAndBitwiseLogic : Prop :=
  ∀ (x y : Ix) (s : State),
    (∃ t, exec (.ldReg x y) s = .next t ∧ t.reg x = s.reg y ∧ UnchangedBut (fun c => c = .reg x) s t) ∧
    (∃ t, exec (.orReg x y) s = .next t ∧
      (∀ k, (t.reg x).getLsbD k = ((s.reg x).getLsbD k || (s.reg y).getLsbD k)) ∧
      UnchangedBut (fun c => c = .reg x) s t) ∧
    (∃ t, exec (.andReg x y) s = .next t ∧
      (∀ k, (t.reg x).getLsbD k = ((s.reg x).getLsbD k && (s.reg y).getLsbD k)) ∧
      UnchangedBut (fun c => c = .reg x) s t) ∧
    (∃ t, exec (.xorReg x y) s = .next t ∧
      (∀ k, (t.reg x).getLsbD k = ((s.reg x).getLsbD k ^^ (s.reg y).getLsbD k)) ∧
      UnchangedBut (fun c => c = .reg x) s t)

/-- 41_alu R136: ADD writes the sum modulo 256 and VF = 1 iff it exceeds 255, VF last. -/
def Obligations.AddWritesSumAndCarry : Prop :=
  ∀ (x y : Ix) (s : State), ∃ t, exec (.addReg x y) s = .next t ∧
    (x ≠ vF → (t.reg x).toNat = ((s.reg x).toNat + (s.reg y).toNat) % 256) ∧
    t.reg vF = (if (s.reg x).toNat + (s.reg y).toNat > 255 then 1 else 0) ∧
    UnchangedBut (fun c => c = .reg x ∨ c = .reg vF) s t

/-- 41_alu R137: SUB writes V[X] - V[Y] modulo 256 and VF = 1 iff there is no borrow, VF last. -/
def Obligations.SubWritesDifferenceAndNoBorrow : Prop :=
  ∀ (x y : Ix) (s : State), ∃ t, exec (.sub x y) s = .next t ∧
    (x ≠ vF → ((t.reg x).toNat : Int) = ((s.reg x).toNat - (s.reg y).toNat : Int) % 256) ∧
    t.reg vF = (if (s.reg x).toNat ≥ (s.reg y).toNat then 1 else 0) ∧
    UnchangedBut (fun c => c = .reg x ∨ c = .reg vF) s t

/-- SUBN writes V[Y] - V[X] modulo 256 and VF = 1 iff there is no borrow, VF last (41_alu R139; the operand order is the
spec's decision D17, log 17). -/
def Obligations.SubnWritesDifferenceAndNoBorrow : Prop :=
  ∀ (x y : Ix) (s : State), ∃ t, exec (.subn x y) s = .next t ∧
    (x ≠ vF → ((t.reg x).toNat : Int) = ((s.reg y).toNat - (s.reg x).toNat : Int) % 256) ∧
    t.reg vF = (if (s.reg y).toNat ≥ (s.reg x).toNat then 1 else 0) ∧
    UnchangedBut (fun c => c = .reg x ∨ c = .reg vF) s t

/-- SHR and SHL shift V[X] in place by one and write the bit shifted out to VF, last (41_alu R138, R140; that V[X] is shifted
and V[Y] ignored is the spec's decision D16, log 16). -/
def Obligations.ShiftsWriteTheBitShiftedOut : Prop :=
  ∀ (x y : Ix) (s : State),
    (∃ t, exec (.shr x y) s = .next t ∧ (x ≠ vF → (t.reg x).toNat = (s.reg x).toNat / 2) ∧
      (t.reg vF).toNat = (s.reg x).toNat % 2 ∧ UnchangedBut (fun c => c = .reg x ∨ c = .reg vF) s t) ∧
    (∃ t, exec (.shl x y) s = .next t ∧ (x ≠ vF → (t.reg x).toNat = (s.reg x).toNat * 2 % 256) ∧
      (t.reg vF).toNat = (s.reg x).toNat / 128 ∧ UnchangedBut (fun c => c = .reg x ∨ c = .reg vF) s t)

/-- RND (41_alu R141) writes the draw masked by NN. The draw is the free value `Config.drawByte s.draws`, of which nothing is
known; that draws are numbered by the model's own field `draws` is the model's choice (log 9), and the statement holds for
every value of it. -/
def Obligations.RndWritesTheMaskedDraw : Prop :=
  ∀ (x : Ix) (nn : Byte) (s : State), ∃ t, exec (.rnd x nn) s = .next t ∧
    t.reg x = (Config.drawByte s.draws &&& nn) ∧ t.draws = s.draws + 1 ∧
    UnchangedBut (fun c => c = .reg x ∨ c = .draws) s t

/-! ## 42_index_memory -/

/-- 42_index_memory R160: LD I sets I to NNN. -/
def Obligations.LdISetsI : Prop :=
  ∀ (nnn : Addr12) (s : State), ∃ t, exec (.ldI nnn) s = .next t ∧ t.i.toNat = nnn.toNat ∧
    UnchangedBut (fun c => c = .i) s t

/-- ADD I adds V[X] modulo 2^16 and writes VF = 1 iff the sum exceeds 0xFFF, VF last (42_index_memory R161; the 16-bit wrap and
the flag on the unwrapped sum are the spec's decision D4, log 12). -/
def Obligations.AddIWritesSumAndFlag : Prop :=
  ∀ (x : Ix) (s : State), ∃ t, exec (.addI x) s = .next t ∧ t.i.toNat = (s.i.toNat + (s.reg x).toNat) % 65536 ∧
    t.reg vF = (if s.i.toNat + (s.reg x).toNat > 0xFFF then 1 else 0) ∧
    UnchangedBut (fun c => c = .i ∨ c = .reg vF) s t

/-- LD F sets I to the glyph's address for a digit up to 15, or records InvalidDigit (42_index_memory R163). That glyph d stands at
0x050 + 5d is the spec's decision D10 (20_memory R57; log 2, PRESUMED). -/
def Obligations.LdFFindsTheGlyphOrFaults : Prop :=
  ∀ (x : Ix) (s : State),
    ((s.reg x).toNat ≤ 15 → ∃ t, exec (.ldF x) s = .next t ∧ t.i.toNat = 0x050 + 5 * (s.reg x).toNat ∧
      UnchangedBut (fun c => c = .i) s t) ∧
    ((s.reg x).toNat > 15 → ∃ t, exec (.ldF x) s = .next t ∧ t.status = .faulted (.invalidDigit (s.pc - 2) (s.reg x)) ∧
      UnchangedBut (fun c => c = .status) s t)

/-- 42_index_memory R164: LD B stores the hundreds, tens and ones of V[X] at I, I+1, I+2, or records OutOfBounds and stores
nothing. Over memories in their canonical form, an invariant (`StepKeepsInvariant`). -/
def Obligations.LdBStoresDecimalDigits : Prop :=
  ∀ (x : Ix) (s : State), Memory.wf s.mem = true →
    (s.i.toNat + 3 ≤ 4096 → ∃ t, exec (.ldB x) s = .next t ∧
      (readByte t.mem s.transferAddr).toNat = (s.reg x).toNat / 100 ∧
      (readByte t.mem (s.transferAddr + 1)).toNat = (s.reg x).toNat / 10 % 10 ∧
      (readByte t.mem (s.transferAddr + 2)).toNat = (s.reg x).toNat % 10 ∧
      UnchangedBut (fun c => ∃ k < 3, c = .byte (s.transferAddr + k)) s t) ∧
    (s.i.toNat + 3 > 4096 → ∃ t, exec (.ldB x) s = .next t ∧
      t.status = .faulted (.outOfBounds (s.pc - 2) s.i.toNat 3) ∧ UnchangedBut (fun c => c = .status) s t)

/-- LD [I] stores V[0] to V[X] at I to I+X, or records OutOfBounds and stores nothing (42_index_memory R165); I is unchanged
(the spec's decision D22, log 21). Over memories in their canonical form, an invariant (`StepKeepsInvariant`). -/
def Obligations.LdMemStoresRegisters : Prop :=
  ∀ (x : Ix) (s : State), Memory.wf s.mem = true →
    (s.i.toNat + x.val + 1 ≤ 4096 → ∃ t, exec (.ldMemFromRegs x) s = .next t ∧
      (∀ k : Ix, k ≤ x → readByte t.mem (s.transferAddr + k.val) = s.reg k) ∧
      UnchangedBut (fun c => ∃ k ≤ x.val, c = .byte (s.transferAddr + k)) s t) ∧
    (s.i.toNat + x.val + 1 > 4096 → ∃ t, exec (.ldMemFromRegs x) s = .next t ∧
      t.status = .faulted (.outOfBounds (s.pc - 2) s.i.toNat (x.val + 1)) ∧ UnchangedBut (fun c => c = .status) s t)

/-- LD Vx,[I] loads V[0] to V[X] from I to I+X, or records OutOfBounds and loads nothing (42_index_memory R166); I is unchanged
(the spec's decision D22, log 21). -/
def Obligations.LdRegsLoadsFromMemory : Prop :=
  ∀ (x : Ix) (s : State),
    (s.i.toNat + x.val + 1 ≤ 4096 → ∃ t, exec (.ldRegsFromMem x) s = .next t ∧
      (∀ k : Ix, k ≤ x → t.reg k = readByte s.mem (s.transferAddr + k.val)) ∧
      UnchangedBut (fun c => ∃ k ≤ x, c = .reg k) s t) ∧
    (s.i.toNat + x.val + 1 > 4096 → ∃ t, exec (.ldRegsFromMem x) s = .next t ∧
      t.status = .faulted (.outOfBounds (s.pc - 2) s.i.toNat (x.val + 1)) ∧ UnchangedBut (fun c => c = .status) s t)

/-- What LD [I],Vx stored, LD Vx,[I] loads back, in any later state whose memory and I are those the store left
(42_index_memory R165, R166; 20_memory R61). That the store leaves I where it was, so that the load reads what was stored, is
the spec's decision D22 (log 21, DEDUCED). Over memories in their canonical form, an invariant (`StepKeepsInvariant`). -/
def Obligations.RegisterDumpThenLoadRestores : Prop :=
  ∀ (x : Ix) (s t u : State), Memory.wf s.mem = true → s.i.toNat + x.val + 1 ≤ 4096 →
    exec (.ldMemFromRegs x) s = .next t → u.mem = t.mem → u.i = t.i →
    ∃ w, exec (.ldRegsFromMem x) u = .next w ∧ ∀ k : Ix, w.reg k = if k ≤ x then s.reg k else u.reg k

/-- Instruction fetch is coherent with stores (20_memory R65): in any state whose memory is what LD [I],Vx or LD B,Vx left, the
CPU at any `pc` runs the bytes as the store left them, those it stored where it stored and the old ones elsewhere, wherever the
block and `pc` lie to each other; a stored sentinel byte halts. Over memories in their canonical form, an invariant
(`StepKeepsInvariant`). That `pc` is advanced before the sentinel halts is the spec's decision D12 (log 13, DEDUCED). -/
def Obligations.StoredInstructionIsFetchedNext : Prop :=
  ∀ (x : Ix) (s t u : State), Memory.wf s.mem = true → u.mem = t.mem → u.status = .running →
    (s.i.toNat + x.val + 1 ≤ 4096 → exec (.ldMemFromRegs x) s = .next t →
      RunsBytes u fun a =>
        if s.i.toNat ≤ a ∧ a ≤ s.i.toNat + x.val then s.reg (Fin.ofNat 16 (a - s.i.toNat)) else readByte s.mem a) ∧
    (s.i.toNat + 3 ≤ 4096 → exec (.ldB x) s = .next t →
      RunsBytes u fun a =>
        if a = s.i.toNat then BitVec.ofNat 8 ((s.reg x).toNat / 100)
        else if a = s.i.toNat + 1 then BitVec.ofNat 8 ((s.reg x).toNat / 10 % 10)
        else if a = s.i.toNat + 2 then BitVec.ofNat 8 ((s.reg x).toNat % 10)
        else readByte s.mem a)

/-- 20_memory R53: an access of `n` bytes at `addr` fails exactly when `addr + n > 4096`, on unbounded naturals: an
instruction's read or write that fails raises OutOfBounds with `at`, `addr` and `len`, and any other is made. -/
def Obligations.AccessFailsExactlyOutOfBounds : Prop :=
  (∀ (m : Memory) (addr : Nat),
    (∀ n, memRead m addr n = none ↔ addr + n > 4096) ∧
    (∀ bytes, memWrite m addr bytes = none ↔ addr + bytes.length > 4096)) ∧
  (∀ (s : State) (addr n : Nat) (use : List Byte → Host.Outcome State Fault Refusal),
    withBytes s addr n use =
      if addr + n > 4096 then .next { s with status := .faulted (.outOfBounds (s.pc - 2) addr n) }
      else use (bytesAt s.mem addr n)) ∧
  (∀ (s : State) (addr : Nat) (bytes : List Byte),
    storeBytes s addr bytes =
      if addr + bytes.length > 4096 then .next { s with status := .faulted (.outOfBounds (s.pc - 2) addr bytes.length) }
      else .next { s with mem := writeBytes s.mem addr bytes })

/-! ## 43_display -/

/-- CLS clears every pixel and sets `fb_dirty`; nothing else changes (43_display R180, R185). That every completed CLS sets the flag,
changed or not, is the spec's decision D26 (log 23, DEDUCED). -/
def Obligations.ClsClearsEveryPixel : Prop :=
  ∀ s : State, ∃ t, exec .cls s = .next t ∧ (∀ x y, x < 64 → y < 32 → pixel t.fb x y = false) ∧ t.fbDirty = true ∧
    UnchangedBut (fun c => c = .fbDirty ∨ ∃ x y, c = .pixel x y) s t

/-- DRW XORs the sprite's bits onto the pixels they fall on, drops what falls off the grid, sets VF to whether a set pixel met a set
bit, and sets `fb_dirty`; or it records OutOfBounds and changes nothing else (43_display R181 to R184). That every completed DRW
sets the flag, changed or not, is the spec's decision D26 (log 23, DEDUCED). -/
def Obligations.DrwXorsTheClippedSprite : Prop :=
  ∀ (x y n : Ix) (s : State),
    (s.i.toNat + n.val ≤ 4096 → ∃ t, exec (.drw x y n) s = .next t ∧
      (∀ px py, px < 64 → py < 32 → pixel t.fb px py =
        (pixel s.fb px py ^^
          spriteBit (bytesAt s.mem s.transferAddr n.val) (s.reg x).toNat (s.reg y).toNat px py)) ∧
      (t.reg vF = 1 ↔ ∃ px py, px < 64 ∧ py < 32 ∧ pixel s.fb px py = true ∧
        spriteBit (bytesAt s.mem s.transferAddr n.val) (s.reg x).toNat (s.reg y).toNat px py = true) ∧
      (t.reg vF = 0 ∨ t.reg vF = 1) ∧ t.fbDirty = true ∧
      UnchangedBut (fun c => c = .reg vF ∨ c = .fbDirty ∨ ∃ px py, c = .pixel px py) s t) ∧
    (s.i.toNat + n.val > 4096 → ∃ t, exec (.drw x y n) s = .next t ∧
      t.status = .faulted (.outOfBounds (s.pc - 2) s.i.toNat n.val) ∧ UnchangedBut (fun c => c = .status) s t)

/-- Drawing (43_display R184) the same sprite twice at the same place restores the framebuffer; on a clear framebuffer the
first draw collides never, and the second exactly when the first changed a pixel. -/
def Obligations.DrawingTwiceRestores : Prop :=
  ∀ (x0 y0 : Nat) (rows : List Byte),
    (∀ fb : Framebuffer, (draw (draw fb x0 y0 rows).1 x0 y0 rows).1 = fb) ∧
    (draw clearedFb x0 y0 rows).2 = false ∧
    ((draw (draw clearedFb x0 y0 rows).1 x0 y0 rows).2 = true ↔ (draw clearedFb x0 y0 rows).1 ≠ clearedFb)

/-! ## 44_timers_input -/

/-- 44_timers_input R200 to R202: LD reads DT, sets DT, sets ST, at once. -/
def Obligations.TimerReadsAndWrites : Prop :=
  ∀ (x : Ix) (s : State),
    (∃ t, exec (.ldVxDT x) s = .next t ∧ t.reg x = s.dt ∧ UnchangedBut (fun c => c = .reg x) s t) ∧
    (∃ t, exec (.ldDTVx x) s = .next t ∧ t.dt = s.reg x ∧ UnchangedBut (fun c => c = .dt) s t) ∧
    (∃ t, exec (.ldSTVx x) s = .next t ∧ t.st = s.reg x ∧ UnchangedBut (fun c => c = .st) s t)

/-- SKP and SKNP add 2 to `pc` exactly when the key V[X] is, or is not, held (44_timers_input R203, R204); a value above 15
records InvalidKey (the spec's decision D20, log 19). -/
def Obligations.SkipsOnKey : Prop :=
  ∀ (x : Ix) (s : State),
    (∀ k : Ix, s.reg x = BitVec.ofNat 8 k.val →
      (∃ t, exec (.skp x) s = .next t ∧ t.pc = (if s.keyHeld[k.val] = true then s.pc + 2 else s.pc) ∧
        UnchangedBut (fun c => c = .pc) s t) ∧
      (∃ t, exec (.sknp x) s = .next t ∧ t.pc = (if s.keyHeld[k.val] = false then s.pc + 2 else s.pc) ∧
        UnchangedBut (fun c => c = .pc) s t)) ∧
    ((s.reg x).toNat > 15 →
      (∃ t, exec (.skp x) s = .next t ∧ t.status = .faulted (.invalidKey (s.pc - 2) (s.reg x)) ∧
        UnchangedBut (fun c => c = .status) s t) ∧
      (∃ t, exec (.sknp x) s = .next t ∧ t.status = .faulted (.invalidKey (s.pc - 2) (s.reg x)) ∧
        UnchangedBut (fun c => c = .status) s t))

/-! ## Rules over every instruction -/

/-- The general registers change only as the "writes" column of 10_state R22 says. -/
def Obligations.RegistersWrittenOnlyAsListed : Prop :=
  ∀ (i : Instr) (s t : State) (r : Ix), exec i s = .next t → r ∉ writtenRegs i → t.reg r = s.reg r

/-- I is written only by LD I, ADD I and LD F (10_state R23). -/
def Obligations.IndexWrittenOnlyByItsInstructions : Prop :=
  ∀ (i : Instr) (s t : State), exec i s = .next t →
    (∀ nnn, i ≠ .ldI nnn) → (∀ x, i ≠ .addI x) → (∀ x, i ≠ .ldF x) → t.i = s.i

/-- Only CALL pushes and only RET pops, and a depth of at most 16 stays at most 16 (10_state R27). -/
def Obligations.StackChangedOnlyByCallAndRet : Prop :=
  ∀ (i : Instr) (s t : State), exec i s = .next t →
    (s.stack.length ≤ 16 → t.stack.length ≤ 16) ∧
    ((∀ nnn, i ≠ .call nnn) → i ≠ .ret → t.stack = s.stack) ∧
    (∀ nnn, i = .call nnn → t.stack = s.stack ∨ t.stack = s.stack ++ [s.pc]) ∧
    (i = .ret → t.stack = s.stack ∨ s.stack = t.stack ++ [t.pc])

/-- Memory is written only by LD B and LD [I] (20_memory R51). -/
def Obligations.MemoryWrittenOnlyByStores : Prop :=
  ∀ (i : Instr) (s t : State), exec i s = .next t → (∀ x, i ≠ .ldB x) → (∀ x, i ≠ .ldMemFromRegs x) → t.mem = s.mem

/-- No instruction but CLS and DRW changes the framebuffer or the dirty flag (10_state R30, R31). This is about instructions: the
host's readout clears the flag too (43_display R187; `ReadoutClearsDirtyOnly`). -/
def Obligations.FramebufferMutatedOnlyByClsAndDrw : Prop :=
  ∀ (i : Instr) (s t : State), exec i s = .next t → i ≠ .cls → (∀ x y n, i ≠ .drw x y n) →
    t.fb = s.fb ∧ t.fbDirty = s.fbDirty

/-- No instruction but LD DT,Vx writes DT, no instruction but LD ST,Vx writes ST, and no instruction writes the key state (10_state
R28, R32). This is about instructions: ticks change DT and ST (44_timers_input R210) and key events the keys. That no instruction
moves the schedule or the boundary's number on is about the model's own fields (log 8, DESIGN CHOICE). -/
def Obligations.TimersAndKeysWrittenOnlyByTheirOwners : Prop :=
  ∀ (i : Instr) (s t : State), exec i s = .next t →
    ((∀ x, i ≠ .ldDTVx x) → t.dt = s.dt) ∧ ((∀ x, i ≠ .ldSTVx x) → t.st = s.st) ∧
    t.keyHeld = s.keyHeld ∧ t.schedule = s.schedule ∧ t.boundary = s.boundary

/-- An instruction that faults leaves every other piece of state as it was (`pc` already advanced), and records the address it
was fetched from (60_exceptions R221, R222; the spec's decision D18, log 18). -/
def Obligations.FaultLeavesAllElseAsItWas : Prop :=
  ∀ (i : Instr) (s t : State) (f : Fault), s.status = .running → exec i s = .next t → t.status = .faulted f →
    t = { s with status := .faulted f } ∧ f.site = s.pc - 2

/-- Every step answers a next state: no instruction, no byte pattern and no status stops the machine with an outcome `fault`
or `refused` (a fatal condition is a next state whose status records it: log 10). -/
def Obligations.EveryStepAnswersNext : Prop :=
  ∀ s : State, ∃ t, step s = .next t

/-- Every step, from any state that meets it, keeps the invariant: memory in canonical form, at most 16 return addresses, none
above 4096, and `pc ≤ 0x10FE` (10_state R27; the bound of R25 is the spec's own derivation). -/
def Obligations.StepKeepsInvariant : Prop :=
  ∀ s t : State, Inv s → step s = .next t → Inv t

/-- The invariant holds after reset. -/
def Obligations.ResetMeetsInvariant : Prop := Inv State.reset

/-! ## Launch -/

/-- 70_reset_and_hazards R261: a ROM of at most 3584 bytes is copied to 0x200 and changes no other byte; a longer one is
refused. Over memories in their canonical form, which the launch's is. -/
def Obligations.RomIsCopiedOrRefused : Prop :=
  ∀ (m : Memory) (rom : List Byte), Memory.wf m = true →
    (rom.length ≤ 3584 → ∃ m', loadProgram m rom = .ok m' ∧ Memory.wf m' = true ∧
      (∀ k, (h : k < rom.length) → readByte m' (0x200 + k) = rom[k]) ∧
      (∀ a, (a < 0x200 ∨ 0x200 + rom.length ≤ a) → readByte m' a = readByte m a)) ∧
    (rom.length > 3584 → loadProgram m rom = .error .programTooLarge)

/-- The value of every state element after reset (10_state R37, with the spec's decisions D5 to D10), for every value of the
launch parameters and every ROM. The draws, the schedule and the boundary's number are the model's own (logs 8 and 9). -/
def Obligations.LaunchLeavesTheTabledValues : Prop :=
  ∀ (p : LaunchParams) (rom : List Byte), rom.length ≤ 3584 →
    ∃ s, launch p rom = .ok s ∧ Inv s ∧ s.v = p.v ∧ s.i = p.i ∧ s.pc = 0x200 ∧ s.stack = [] ∧ s.dt = p.dt ∧ s.st = p.st ∧
      s.status = .running ∧ s.fb = p.fb ∧ s.fbDirty = p.dirty ∧ s.keyHeld = p.keys ∧
      s.draws = 0 ∧ s.schedule = p.schedule ∧ s.boundary = p.boundary ∧
      (∀ d : Fin 80, readByte s.mem (0x050 + d.val) = p.font[d.val]) ∧
      (∀ k, (h : k < rom.length) → readByte s.mem (0x200 + k) = rom[k]) ∧
      (∀ a, a < 4096 → (a < 0x050 ∨ 0x0A0 ≤ a) → (a < 0x200 ∨ 0x200 + rom.length ≤ a) → readByte s.mem a = p.mem a)

/-- `State.reset` is the launch of 70_reset_and_hazards R260 with the parameters of `CleanReset` (R262) and an empty ROM. That
reset takes these values is the model's choice, logs 3 to 6 and 8. -/
def Obligations.ResetIsTheCleanLaunch : Prop :=
  launch cleanParams [] = .ok State.reset

/-! ## The boundary between two steps -/

/-- A step lands the events due at its boundary, each after the one before, and then the CPU makes its transition (20_memory R62).
Due is the head group of `schedule`, and past its end the group of the free schedule for the boundary's number, of which nothing
is known and which has no end (00_scope R9); every step moves both on, so a schedule of any length, an endless one too, lands.
Each timer is down by its own ticks in the group (44_timers_input R210), each key is as its last event in the group left it
(R207), a readout in the group clears `fb_dirty` (43_display R187), and a wait for a key ends where the group holds a press: the
first press, whatever lands before and after it, is written to the waiting register, the CPU is Running, nothing else changes but
what the timers and the host own, and the step goes on from there (R207). That any press which comes in the wait ends it is the
spec's decision D21 (log 20, DEDUCED); that the schedule stands in the state as groups and a number, and that the CPU goes on in
the step in which its wait ends, are the model's choices (log 8, DESIGN CHOICE). -/
def Obligations.ScheduledEventsLandInOrderAndAPressEndsTheWait : Prop :=
  ∀ s : State, step s = cpuStep s.landEvents ∧
    (∀ (group : List Event) (later : List (List Event)), s.schedule = group :: later → s.dueEvents = group) ∧
    (s.schedule = [] → s.dueEvents = Config.scheduledEvents s.boundary) ∧
    s.landEvents = s.dueEvents.foldl Event.deliver { s with schedule := s.schedule.tail, boundary := s.boundary + 1 } ∧
    (∀ t, step s = .next t → t.schedule = s.schedule.tail ∧ t.boundary = s.boundary + 1) ∧
    s.landEvents.dt.toNat = s.dt.toNat - s.dueEvents.count .tickDT ∧
    s.landEvents.st.toNat = s.st.toNat - s.dueEvents.count .tickST ∧
    s.landEvents.fbDirty = (if Event.readout ∈ s.dueEvents then false else s.fbDirty) ∧
    ∀ (k : Ix) (before after : List Event),
      (s.dueEvents = before ++ .keyDown k :: after → .keyUp k ∉ after → s.landEvents.keyHeld[k.val] = true) ∧
      (s.dueEvents = before ++ .keyUp k :: after → .keyDown k ∉ after → s.landEvents.keyHeld[k.val] = false) ∧
      (.keyDown k ∉ s.dueEvents → .keyUp k ∉ s.dueEvents → s.landEvents.keyHeld[k.val] = s.keyHeld[k.val]) ∧
      (∀ x, s.status = .waitKey x → s.dueEvents = before ++ .keyDown k :: after → (∀ j, .keyDown j ∉ before) →
        s.landEvents.status = .running ∧ s.landEvents.reg x = BitVec.ofNat 8 k.val ∧
        UnchangedBut (fun c => c = .reg x ∨ c = .status ∨ EnvironmentOwned c) s s.landEvents)
end

