-- ==== Sys2Proof/Laws/Decode.lean ====
section
/-! SUPPORT. The fields read back from the words the encoder lays out, and the two bytes of a word. -/

namespace Sys2Proof

theorem wordOfBytes_high_low (w : Word) : wordOfBytes (highByte w) (lowByte w) = w := by
  apply BitVec.eq_of_toNat_eq
  simp only [wordOfBytes, highByte, lowByte, BitVec.toNat_append, BitVec.extractLsb'_toNat, Nat.shiftRight_zero]
  have := w.isLt
  rw [← Nat.shiftLeft_add_eq_or_of_lt (Nat.mod_lt _ (by decide)), Nat.shiftLeft_eq, Nat.shiftRight_eq_div_pow]
  omega

theorem toNat_wordOfBytes (b0 b1 : Byte) : (wordOfBytes b0 b1).toNat = b0.toNat * 256 + b1.toNat := by
  simp only [wordOfBytes, BitVec.toNat_append]
  rw [← Nat.shiftLeft_add_eq_or_of_lt b1.isLt, Nat.shiftLeft_eq]

theorem toNat_wordAddr (op : BitVec 4) (nnn : Addr12) : (wordAddr op nnn).toNat = op.toNat * 4096 + nnn.toNat := by
  simp only [wordAddr, BitVec.toNat_append]
  rw [← Nat.shiftLeft_add_eq_or_of_lt nnn.isLt, Nat.shiftLeft_eq]

theorem toNat_wordRegImm (op : BitVec 4) (x : Ix) (nn : Byte) :
    (wordRegImm op x nn).toNat = op.toNat * 4096 + x.val * 256 + nn.toNat := by
  simp only [wordRegImm, BitVec.toNat_append, BitVec.toNat_ofFin]
  rw [← Nat.shiftLeft_add_eq_or_of_lt nn.isLt, ← Nat.shiftLeft_add_eq_or_of_lt (b := x.val) (i := 4) x.isLt, Nat.shiftLeft_eq,
    Nat.shiftLeft_eq]
  omega

theorem toNat_wordRegReg (op : BitVec 4) (x y sub : Ix) :
    (wordRegReg op x y sub).toNat = op.toNat * 4096 + x.val * 256 + y.val * 16 + sub.val := by
  simp only [wordRegReg, BitVec.toNat_append, BitVec.toNat_ofFin]
  rw [← Nat.shiftLeft_add_eq_or_of_lt (b := sub.val) (i := 4) sub.isLt,
    ← Nat.shiftLeft_add_eq_or_of_lt (b := y.val) (i := 4) y.isLt,
    ← Nat.shiftLeft_add_eq_or_of_lt (b := x.val) (i := 4) x.isLt, Nat.shiftLeft_eq, Nat.shiftLeft_eq, Nat.shiftLeft_eq]
  omega

/-! The fields of a word as arithmetic on its value. -/

theorem val_nibble (w : Word) (lo : Nat) : (nibble w lo).val = w.toNat / 2 ^ lo % 16 := by
  simp [nibble, Nat.shiftRight_eq_div_pow]

theorem val_fieldX (w : Word) : (fieldX w).val = w.toNat / 256 % 16 := val_nibble w 8

theorem val_fieldY (w : Word) : (fieldY w).val = w.toNat / 16 % 16 := val_nibble w 4

theorem val_fieldN (w : Word) : (fieldN w).val = w.toNat % 16 := by simpa [fieldN] using val_nibble w 0

theorem toNat_fieldNN (w : Word) : (fieldNN w).toNat = w.toNat % 256 := by
  simp [fieldNN, BitVec.extractLsb'_toNat]

theorem toNat_fieldNNN (w : Word) : (fieldNNN w).toNat = w.toNat % 4096 := by
  simp [fieldNNN, BitVec.extractLsb'_toNat]

theorem toNat_highByte (w : Word) : (highByte w).toNat = w.toNat / 256 := by
  have := w.isLt
  simp only [highByte, BitVec.extractLsb'_toNat, Nat.shiftRight_eq_div_pow]
  omega

theorem toNat_lowByte (w : Word) : (lowByte w).toNat = w.toNat % 256 := by
  simp [lowByte, BitVec.extractLsb'_toNat]

end Sys2Proof
end

