-- ==== Sys2Proof/Laws/Memory.lean ====
section
/-! SUPPORT. The laws of memory: a read after a write, and that every operation keeps the canonical form. -/

namespace Sys2Proof.Machine

theorem Memory.wf_iff (m : Memory) :
    Memory.wf m = true ↔
      m.Pairwise (fun p q => p.1 < q.1) ∧ ∀ p ∈ m, p.1 < Config.memSize ∧ p.2 ≠ unlisted p.1 := by
  simp [Memory.wf, List.all_eq_true]

/-- A memory tail below which `a` lies reads `a` as unlisted. -/
theorem readByte_of_below {m : Memory} {a : Nat} (h : ∀ p ∈ m, a < p.1) : readByte m a = unlisted a := by
  induction m with
  | nil => rfl
  | cons p m ih =>
    have hp : a < p.1 := h p (by simp)
    simp only [readByte, Nat.ne_of_lt hp, if_false]
    exact ih fun q hq => h q (by simp [hq])

theorem readByte_consByte {m : Memory} {a : Nat} (h : ∀ p ∈ m, a < p.1) (b : Byte) (a' : Nat) :
    readByte (consByte a b m) a' = if a' = a then b else readByte m a' := by
  unfold consByte
  split
  · split
    · subst_vars; exact readByte_of_below h
    · rfl
  · rfl

/-- A read after a write to the same address gives the byte written, and a write leaves every other address alone. -/
theorem readByte_writeByte {m : Memory} (hm : m.Pairwise fun p q => p.1 < q.1) (a : Nat) (b : Byte) (a' : Nat) :
    readByte (writeByte m a b) a' = if a' = a then b else readByte m a' := by
  induction m with
  | nil => exact readByte_consByte (by simp) b a'
  | cons p m ih =>
    obtain ⟨k, c⟩ := p
    have hk := List.pairwise_cons.1 hm
    unfold writeByte
    split
    · next hlt =>
      refine readByte_consByte (fun p hp => ?_) b a'
      rcases List.mem_cons.1 hp with rfl | hp
      · exact hlt
      · exact Nat.lt_trans hlt (hk.1 p hp)
    · split
      · next heq =>
        subst heq
        rw [readByte_consByte hk.1]
        simp only [readByte]
        split <;> rfl
      · next hne =>
        simp only [readByte, ih hk.2]
        split
        · next h => simp [h, Ne.symm hne]
        · rfl

theorem mem_consByte {m : Memory} {a : Nat} {b : Byte} {p : Host.Cell} (h : p ∈ consByte a b m) :
    p ∈ m ∨ (p = (a, b) ∧ b ≠ unlisted a) := by
  unfold consByte at h
  split at h
  · exact .inl h
  · next hb =>
    rcases List.mem_cons.1 h with rfl | h
    · exact .inr ⟨rfl, hb⟩
    · exact .inl h

theorem mem_writeByte {m : Memory} {a : Nat} {b : Byte} {p : Host.Cell} (h : p ∈ writeByte m a b) :
    p ∈ m ∨ (p = (a, b) ∧ b ≠ unlisted a) := by
  induction m with
  | nil => exact mem_consByte h
  | cons q m ih =>
    obtain ⟨k, c⟩ := q
    unfold writeByte at h
    split at h
    · exact mem_consByte h
    · split at h
      · exact (mem_consByte h).imp (fun h => by simp [h]) id
      · rcases List.mem_cons.1 h with rfl | h
        · exact .inl (by simp)
        · exact (ih h).imp (fun h => by simp [h]) id

theorem pairwise_consByte {m : Memory} (hm : m.Pairwise fun p q => p.1 < q.1) {a : Nat} (h : ∀ p ∈ m, a < p.1)
    (b : Byte) : (consByte a b m).Pairwise fun p q => p.1 < q.1 := by
  unfold consByte
  split
  · exact hm
  · exact List.pairwise_cons.2 ⟨h, hm⟩

theorem pairwise_writeByte {m : Memory} (hm : m.Pairwise fun p q => p.1 < q.1) (a : Nat) (b : Byte) :
    (writeByte m a b).Pairwise fun p q => p.1 < q.1 := by
  induction m with
  | nil => exact pairwise_consByte hm (by simp) b
  | cons q m ih =>
    obtain ⟨k, c⟩ := q
    have hk := List.pairwise_cons.1 hm
    unfold writeByte
    split
    · next hlt =>
      refine pairwise_consByte hm (fun p hp => ?_) b
      rcases List.mem_cons.1 hp with rfl | hp
      · exact hlt
      · exact Nat.lt_trans hlt (hk.1 p hp)
    · split
      · next heq => exact pairwise_consByte hk.2 (heq ▸ hk.1) b
      · next hnlt hne =>
        refine List.pairwise_cons.2 ⟨fun p hp => ?_, ih hk.2⟩
        rcases mem_writeByte hp with hp | ⟨rfl, -⟩
        · exact hk.1 p hp
        · exact Nat.lt_of_le_of_ne (Nat.le_of_not_lt hnlt) (Ne.symm hne)

/-- A write of one byte inside the address space keeps the canonical form. -/
theorem wf_writeByte {m : Memory} (hm : Memory.wf m = true) {a : Nat} (ha : a < Config.memSize) (b : Byte) :
    Memory.wf (writeByte m a b) = true := by
  rw [Memory.wf_iff] at hm ⊢
  refine ⟨pairwise_writeByte hm.1 a b, fun p hp => ?_⟩
  rcases mem_writeByte hp with hp | ⟨rfl, hb⟩
  · exact hm.2 p hp
  · exact ⟨ha, hb⟩

theorem wf_writeBytes {m : Memory} (hm : Memory.wf m = true) {a : Nat} {bytes : List Byte}
    (ha : a + bytes.length ≤ Config.memSize) : Memory.wf (writeBytes m a bytes) = true := by
  induction bytes generalizing m a with
  | nil => exact hm
  | cons b bs ih =>
    simp only [List.length_cons] at ha
    exact ih (wf_writeByte hm (by omega) b) (by omega)

/-- What a block write leaves: byte `k` of the block at `a + k`, every other address as before. -/
theorem readByte_writeBytes {m : Memory} (hm : m.Pairwise fun p q => p.1 < q.1) (a : Nat) (bytes : List Byte) (a' : Nat) :
    readByte (writeBytes m a bytes) a' =
      if a ≤ a' ∧ a' < a + bytes.length then bytes.getD (a' - a) 0 else readByte m a' := by
  induction bytes generalizing m a with
  | nil =>
    have : ¬ (a ≤ a' ∧ a' < a + 0) := by omega
    simp only [writeBytes, List.length_nil, this, if_false]
  | cons b bs ih =>
    rw [writeBytes, ih (pairwise_writeByte hm a b), readByte_writeByte hm]
    simp only [List.length_cons]
    by_cases h1 : a' = a
    · subst h1
      have h2 : ¬ (a' + 1 ≤ a' ∧ a' < a' + 1 + bs.length) := by omega
      have h3 : a' ≤ a' ∧ a' < a' + (bs.length + 1) := by omega
      simp
    · by_cases h2 : a + 1 ≤ a' ∧ a' < a + 1 + bs.length
      · have h3 : a ≤ a' ∧ a' < a + (bs.length + 1) := by omega
        obtain ⟨j, hj⟩ : ∃ j, a' - a = j + 1 := ⟨a' - a - 1, by omega⟩
        have h4 : a' - (a + 1) = j := by omega
        simp only [if_pos h2, if_pos h3, hj, h4, List.getD_cons_succ]
      · have h3 : ¬ (a ≤ a' ∧ a' < a + (bs.length + 1)) := by omega
        simp only [if_neg h1, if_neg h2, if_neg h3]

/-- `MemWrite` says what it does: it succeeds exactly inside the address space. -/
theorem memWrite_eq_some {m m' : Memory} {a : Nat} {bytes : List Byte} :
    memWrite m a bytes = some m' ↔ a + bytes.length ≤ Config.memSize ∧ m' = writeBytes m a bytes := by
  unfold memWrite
  split <;> simp [*, eq_comm]

theorem memRead_eq_some {m : Memory} {a n : Nat} {bytes : List Byte} :
    memRead m a n = some bytes ↔ a + n ≤ Config.memSize ∧ bytes = bytesAt m a n := by
  unfold memRead
  split <;> simp [*, eq_comm]

/-- `MemWrite` keeps the canonical form. -/
theorem wf_memWrite {m m' : Memory} (hm : Memory.wf m = true) {a : Nat} {bytes : List Byte}
    (h : memWrite m a bytes = some m') : Memory.wf m' = true := by
  obtain ⟨ha, rfl⟩ := memWrite_eq_some.1 h
  exact wf_writeBytes hm ha

@[simp] theorem length_bytesAt (m : Memory) (a n : Nat) : (bytesAt m a n).length = n := by simp [bytesAt]

@[simp] theorem getElem_bytesAt (m : Memory) (a n k : Nat) (h : k < (bytesAt m a n).length) :
    (bytesAt m a n)[k] = readByte m (a + k) := by simp [bytesAt]

/-- Reading through a filtered table of addresses in rising order. -/
theorem readByte_filterMap (f : Nat → Byte) (l : List Nat) (a : Nat) :
    readByte (l.filterMap fun a => if f a = unlisted a then none else some (a, f a)) a =
      if a ∈ l then f a else unlisted a := by
  induction l with
  | nil => simp [readByte]
  | cons k l ih =>
    by_cases hk : f k = unlisted k
    · rw [List.filterMap_cons_none (by simp [hk]), ih]
      by_cases ha : a = k
      · subst ha; simp [hk]
      · simp [ha]
    · rw [List.filterMap_cons_some (b := (k, f k)) (by simp [hk])]
      simp only [readByte, ih]
      by_cases ha : a = k
      · subst ha; simp
      · simp [ha]

theorem readByte_memoryOf (f : Nat → Byte) {a : Nat} (h : a < Config.memSize) : readByte (memoryOf f) a = f a := by
  simp only [memoryOf, readByte_filterMap, List.mem_range, h, if_true]

theorem wf_memoryOf (f : Nat → Byte) : Memory.wf (memoryOf f) = true := by
  rw [Memory.wf_iff]
  constructor
  · refine List.Pairwise.filterMap _ (fun a a' haa b hb b' hb' => ?_) List.pairwise_lt_range
    simp only [Option.ite_none_left_eq_some, Option.some.injEq] at hb hb'
    rw [← hb.2, ← hb'.2]
    exact haa
  · intro p hp
    obtain ⟨a, ha, h⟩ := List.mem_filterMap.1 hp
    rw [Option.ite_none_left_eq_some, Option.some.injEq] at h
    rw [← h.2]
    exact ⟨List.mem_range.1 ha, h.1⟩

end Sys2Proof.Machine
end

