-- ==== Sys2Proof/Laws/State.lean ====
section
/-! SUPPORT. What each named update of the state leaves in each field, and what each register reads after a register write. -/

namespace Sys2Proof.Machine.State

variable (s : State)


@[simp] theorem setReg_v (x : Ix) (b : Byte) : (s.setReg x b).v = s.v.set x.val b := rfl
@[simp] theorem setReg_i (x : Ix) (b : Byte) : (s.setReg x b).i = s.i := rfl
@[simp] theorem setReg_pc (x : Ix) (b : Byte) : (s.setReg x b).pc = s.pc := rfl
@[simp] theorem setReg_stack (x : Ix) (b : Byte) : (s.setReg x b).stack = s.stack := rfl
@[simp] theorem setReg_dt (x : Ix) (b : Byte) : (s.setReg x b).dt = s.dt := rfl
@[simp] theorem setReg_st (x : Ix) (b : Byte) : (s.setReg x b).st = s.st := rfl
@[simp] theorem setReg_status (x : Ix) (b : Byte) : (s.setReg x b).status = s.status := rfl
@[simp] theorem setReg_mem (x : Ix) (b : Byte) : (s.setReg x b).mem = s.mem := rfl
@[simp] theorem setReg_fb (x : Ix) (b : Byte) : (s.setReg x b).fb = s.fb := rfl
@[simp] theorem setReg_fbDirty (x : Ix) (b : Byte) : (s.setReg x b).fbDirty = s.fbDirty := rfl
@[simp] theorem setReg_keyHeld (x : Ix) (b : Byte) : (s.setReg x b).keyHeld = s.keyHeld := rfl
@[simp] theorem setReg_draws (x : Ix) (b : Byte) : (s.setReg x b).draws = s.draws := rfl
@[simp] theorem setReg_schedule (x : Ix) (b : Byte) : (s.setReg x b).schedule = s.schedule := rfl
@[simp] theorem setReg_boundary (x : Ix) (b : Byte) : (s.setReg x b).boundary = s.boundary := rfl

@[simp] theorem setI_v (w : Word) : (s.setI w).v = s.v := rfl
@[simp] theorem setI_i (w : Word) : (s.setI w).i = w := rfl
@[simp] theorem setI_pc (w : Word) : (s.setI w).pc = s.pc := rfl
@[simp] theorem setI_stack (w : Word) : (s.setI w).stack = s.stack := rfl
@[simp] theorem setI_dt (w : Word) : (s.setI w).dt = s.dt := rfl
@[simp] theorem setI_st (w : Word) : (s.setI w).st = s.st := rfl
@[simp] theorem setI_status (w : Word) : (s.setI w).status = s.status := rfl
@[simp] theorem setI_mem (w : Word) : (s.setI w).mem = s.mem := rfl
@[simp] theorem setI_fb (w : Word) : (s.setI w).fb = s.fb := rfl
@[simp] theorem setI_fbDirty (w : Word) : (s.setI w).fbDirty = s.fbDirty := rfl
@[simp] theorem setI_keyHeld (w : Word) : (s.setI w).keyHeld = s.keyHeld := rfl
@[simp] theorem setI_draws (w : Word) : (s.setI w).draws = s.draws := rfl
@[simp] theorem setI_schedule (w : Word) : (s.setI w).schedule = s.schedule := rfl
@[simp] theorem setI_boundary (w : Word) : (s.setI w).boundary = s.boundary := rfl

@[simp] theorem setPc_v (w : Word) : (s.setPc w).v = s.v := rfl
@[simp] theorem setPc_i (w : Word) : (s.setPc w).i = s.i := rfl
@[simp] theorem setPc_pc (w : Word) : (s.setPc w).pc = w := rfl
@[simp] theorem setPc_stack (w : Word) : (s.setPc w).stack = s.stack := rfl
@[simp] theorem setPc_dt (w : Word) : (s.setPc w).dt = s.dt := rfl
@[simp] theorem setPc_st (w : Word) : (s.setPc w).st = s.st := rfl
@[simp] theorem setPc_status (w : Word) : (s.setPc w).status = s.status := rfl
@[simp] theorem setPc_mem (w : Word) : (s.setPc w).mem = s.mem := rfl
@[simp] theorem setPc_fb (w : Word) : (s.setPc w).fb = s.fb := rfl
@[simp] theorem setPc_fbDirty (w : Word) : (s.setPc w).fbDirty = s.fbDirty := rfl
@[simp] theorem setPc_keyHeld (w : Word) : (s.setPc w).keyHeld = s.keyHeld := rfl
@[simp] theorem setPc_draws (w : Word) : (s.setPc w).draws = s.draws := rfl
@[simp] theorem setPc_schedule (w : Word) : (s.setPc w).schedule = s.schedule := rfl
@[simp] theorem setPc_boundary (w : Word) : (s.setPc w).boundary = s.boundary := rfl

@[simp] theorem advancePc_v : (s.advancePc).v = s.v := rfl
@[simp] theorem advancePc_i : (s.advancePc).i = s.i := rfl
@[simp] theorem advancePc_pc : (s.advancePc).pc = s.pc + 2 := rfl
@[simp] theorem advancePc_stack : (s.advancePc).stack = s.stack := rfl
@[simp] theorem advancePc_dt : (s.advancePc).dt = s.dt := rfl
@[simp] theorem advancePc_st : (s.advancePc).st = s.st := rfl
@[simp] theorem advancePc_status : (s.advancePc).status = s.status := rfl
@[simp] theorem advancePc_mem : (s.advancePc).mem = s.mem := rfl
@[simp] theorem advancePc_fb : (s.advancePc).fb = s.fb := rfl
@[simp] theorem advancePc_fbDirty : (s.advancePc).fbDirty = s.fbDirty := rfl
@[simp] theorem advancePc_keyHeld : (s.advancePc).keyHeld = s.keyHeld := rfl
@[simp] theorem advancePc_draws : (s.advancePc).draws = s.draws := rfl
@[simp] theorem advancePc_schedule : (s.advancePc).schedule = s.schedule := rfl
@[simp] theorem advancePc_boundary : (s.advancePc).boundary = s.boundary := rfl

@[simp] theorem push_v (w : Word) : (s.push w).v = s.v := rfl
@[simp] theorem push_i (w : Word) : (s.push w).i = s.i := rfl
@[simp] theorem push_pc (w : Word) : (s.push w).pc = s.pc := rfl
@[simp] theorem push_stack (w : Word) : (s.push w).stack = s.stack ++ [w] := rfl
@[simp] theorem push_dt (w : Word) : (s.push w).dt = s.dt := rfl
@[simp] theorem push_st (w : Word) : (s.push w).st = s.st := rfl
@[simp] theorem push_status (w : Word) : (s.push w).status = s.status := rfl
@[simp] theorem push_mem (w : Word) : (s.push w).mem = s.mem := rfl
@[simp] theorem push_fb (w : Word) : (s.push w).fb = s.fb := rfl
@[simp] theorem push_fbDirty (w : Word) : (s.push w).fbDirty = s.fbDirty := rfl
@[simp] theorem push_keyHeld (w : Word) : (s.push w).keyHeld = s.keyHeld := rfl
@[simp] theorem push_draws (w : Word) : (s.push w).draws = s.draws := rfl
@[simp] theorem push_schedule (w : Word) : (s.push w).schedule = s.schedule := rfl
@[simp] theorem push_boundary (w : Word) : (s.push w).boundary = s.boundary := rfl

@[simp] theorem setStatus_v (x : Status) : (s.setStatus x).v = s.v := rfl
@[simp] theorem setStatus_i (x : Status) : (s.setStatus x).i = s.i := rfl
@[simp] theorem setStatus_pc (x : Status) : (s.setStatus x).pc = s.pc := rfl
@[simp] theorem setStatus_stack (x : Status) : (s.setStatus x).stack = s.stack := rfl
@[simp] theorem setStatus_dt (x : Status) : (s.setStatus x).dt = s.dt := rfl
@[simp] theorem setStatus_st (x : Status) : (s.setStatus x).st = s.st := rfl
@[simp] theorem setStatus_status (x : Status) : (s.setStatus x).status = x := rfl
@[simp] theorem setStatus_mem (x : Status) : (s.setStatus x).mem = s.mem := rfl
@[simp] theorem setStatus_fb (x : Status) : (s.setStatus x).fb = s.fb := rfl
@[simp] theorem setStatus_fbDirty (x : Status) : (s.setStatus x).fbDirty = s.fbDirty := rfl
@[simp] theorem setStatus_keyHeld (x : Status) : (s.setStatus x).keyHeld = s.keyHeld := rfl
@[simp] theorem setStatus_draws (x : Status) : (s.setStatus x).draws = s.draws := rfl
@[simp] theorem setStatus_schedule (x : Status) : (s.setStatus x).schedule = s.schedule := rfl
@[simp] theorem setStatus_boundary (x : Status) : (s.setStatus x).boundary = s.boundary := rfl

@[simp] theorem setFlag_v (c : Bool) : (s.setFlag c).v = s.v.set 15 (flagByte c) := rfl
@[simp] theorem setFlag_i (c : Bool) : (s.setFlag c).i = s.i := rfl
@[simp] theorem setFlag_pc (c : Bool) : (s.setFlag c).pc = s.pc := rfl
@[simp] theorem setFlag_stack (c : Bool) : (s.setFlag c).stack = s.stack := rfl
@[simp] theorem setFlag_dt (c : Bool) : (s.setFlag c).dt = s.dt := rfl
@[simp] theorem setFlag_st (c : Bool) : (s.setFlag c).st = s.st := rfl
@[simp] theorem setFlag_status (c : Bool) : (s.setFlag c).status = s.status := rfl
@[simp] theorem setFlag_mem (c : Bool) : (s.setFlag c).mem = s.mem := rfl
@[simp] theorem setFlag_fb (c : Bool) : (s.setFlag c).fb = s.fb := rfl
@[simp] theorem setFlag_fbDirty (c : Bool) : (s.setFlag c).fbDirty = s.fbDirty := rfl
@[simp] theorem setFlag_keyHeld (c : Bool) : (s.setFlag c).keyHeld = s.keyHeld := rfl
@[simp] theorem setFlag_draws (c : Bool) : (s.setFlag c).draws = s.draws := rfl
@[simp] theorem setFlag_schedule (c : Bool) : (s.setFlag c).schedule = s.schedule := rfl
@[simp] theorem setFlag_boundary (c : Bool) : (s.setFlag c).boundary = s.boundary := rfl

@[simp] theorem setRegFlag_v (x : Ix) (b : Byte) (c : Bool) : (s.setRegFlag x b c).v = (s.v.set x.val b).set 15 (flagByte c) := rfl
@[simp] theorem setRegFlag_i (x : Ix) (b : Byte) (c : Bool) : (s.setRegFlag x b c).i = s.i := rfl
@[simp] theorem setRegFlag_pc (x : Ix) (b : Byte) (c : Bool) : (s.setRegFlag x b c).pc = s.pc := rfl
@[simp] theorem setRegFlag_stack (x : Ix) (b : Byte) (c : Bool) : (s.setRegFlag x b c).stack = s.stack := rfl
@[simp] theorem setRegFlag_dt (x : Ix) (b : Byte) (c : Bool) : (s.setRegFlag x b c).dt = s.dt := rfl
@[simp] theorem setRegFlag_st (x : Ix) (b : Byte) (c : Bool) : (s.setRegFlag x b c).st = s.st := rfl
@[simp] theorem setRegFlag_status (x : Ix) (b : Byte) (c : Bool) : (s.setRegFlag x b c).status = s.status := rfl
@[simp] theorem setRegFlag_mem (x : Ix) (b : Byte) (c : Bool) : (s.setRegFlag x b c).mem = s.mem := rfl
@[simp] theorem setRegFlag_fb (x : Ix) (b : Byte) (c : Bool) : (s.setRegFlag x b c).fb = s.fb := rfl
@[simp] theorem setRegFlag_fbDirty (x : Ix) (b : Byte) (c : Bool) : (s.setRegFlag x b c).fbDirty = s.fbDirty := rfl
@[simp] theorem setRegFlag_keyHeld (x : Ix) (b : Byte) (c : Bool) : (s.setRegFlag x b c).keyHeld = s.keyHeld := rfl
@[simp] theorem setRegFlag_draws (x : Ix) (b : Byte) (c : Bool) : (s.setRegFlag x b c).draws = s.draws := rfl
@[simp] theorem setRegFlag_schedule (x : Ix) (b : Byte) (c : Bool) : (s.setRegFlag x b c).schedule = s.schedule := rfl
@[simp] theorem setRegFlag_boundary (x : Ix) (b : Byte) (c : Bool) : (s.setRegFlag x b c).boundary = s.boundary := rfl

@[simp] theorem display_v (fb : Framebuffer) : (s.display fb).v = s.v := rfl
@[simp] theorem display_i (fb : Framebuffer) : (s.display fb).i = s.i := rfl
@[simp] theorem display_pc (fb : Framebuffer) : (s.display fb).pc = s.pc := rfl
@[simp] theorem display_stack (fb : Framebuffer) : (s.display fb).stack = s.stack := rfl
@[simp] theorem display_dt (fb : Framebuffer) : (s.display fb).dt = s.dt := rfl
@[simp] theorem display_st (fb : Framebuffer) : (s.display fb).st = s.st := rfl
@[simp] theorem display_status (fb : Framebuffer) : (s.display fb).status = s.status := rfl
@[simp] theorem display_mem (fb : Framebuffer) : (s.display fb).mem = s.mem := rfl
@[simp] theorem display_fb (fb : Framebuffer) : (s.display fb).fb = fb := rfl
@[simp] theorem display_fbDirty (fb : Framebuffer) : (s.display fb).fbDirty = true := rfl
@[simp] theorem display_keyHeld (fb : Framebuffer) : (s.display fb).keyHeld = s.keyHeld := rfl
@[simp] theorem display_draws (fb : Framebuffer) : (s.display fb).draws = s.draws := rfl
@[simp] theorem display_schedule (fb : Framebuffer) : (s.display fb).schedule = s.schedule := rfl
@[simp] theorem display_boundary (fb : Framebuffer) : (s.display fb).boundary = s.boundary := rfl

@[simp] theorem passBoundary_v : s.passBoundary.v = s.v := rfl
@[simp] theorem passBoundary_i : s.passBoundary.i = s.i := rfl
@[simp] theorem passBoundary_pc : s.passBoundary.pc = s.pc := rfl
@[simp] theorem passBoundary_stack : s.passBoundary.stack = s.stack := rfl
@[simp] theorem passBoundary_dt : s.passBoundary.dt = s.dt := rfl
@[simp] theorem passBoundary_st : s.passBoundary.st = s.st := rfl
@[simp] theorem passBoundary_status : s.passBoundary.status = s.status := rfl
@[simp] theorem passBoundary_mem : s.passBoundary.mem = s.mem := rfl
@[simp] theorem passBoundary_fb : s.passBoundary.fb = s.fb := rfl
@[simp] theorem passBoundary_fbDirty : s.passBoundary.fbDirty = s.fbDirty := rfl
@[simp] theorem passBoundary_keyHeld : s.passBoundary.keyHeld = s.keyHeld := rfl
@[simp] theorem passBoundary_draws : s.passBoundary.draws = s.draws := rfl
@[simp] theorem passBoundary_schedule : s.passBoundary.schedule = s.schedule.tail := rfl
@[simp] theorem passBoundary_boundary : s.passBoundary.boundary = s.boundary + 1 := rfl

@[simp] theorem setKey_v (k : Ix) (b : Bool) : (s.setKey k b).v = s.v := rfl
@[simp] theorem setKey_i (k : Ix) (b : Bool) : (s.setKey k b).i = s.i := rfl
@[simp] theorem setKey_pc (k : Ix) (b : Bool) : (s.setKey k b).pc = s.pc := rfl
@[simp] theorem setKey_stack (k : Ix) (b : Bool) : (s.setKey k b).stack = s.stack := rfl
@[simp] theorem setKey_dt (k : Ix) (b : Bool) : (s.setKey k b).dt = s.dt := rfl
@[simp] theorem setKey_st (k : Ix) (b : Bool) : (s.setKey k b).st = s.st := rfl
@[simp] theorem setKey_status (k : Ix) (b : Bool) : (s.setKey k b).status = s.status := rfl
@[simp] theorem setKey_mem (k : Ix) (b : Bool) : (s.setKey k b).mem = s.mem := rfl
@[simp] theorem setKey_fb (k : Ix) (b : Bool) : (s.setKey k b).fb = s.fb := rfl
@[simp] theorem setKey_fbDirty (k : Ix) (b : Bool) : (s.setKey k b).fbDirty = s.fbDirty := rfl
@[simp] theorem setKey_keyHeld (k : Ix) (b : Bool) : (s.setKey k b).keyHeld = s.keyHeld.set k.val b := rfl
@[simp] theorem setKey_draws (k : Ix) (b : Bool) : (s.setKey k b).draws = s.draws := rfl
@[simp] theorem setKey_schedule (k : Ix) (b : Bool) : (s.setKey k b).schedule = s.schedule := rfl
@[simp] theorem setKey_boundary (k : Ix) (b : Bool) : (s.setKey k b).boundary = s.boundary := rfl

@[simp] theorem skipIf_v (c : Bool) : (s.skipIf c).v = s.v := by cases c <;> rfl
@[simp] theorem skipIf_i (c : Bool) : (s.skipIf c).i = s.i := by cases c <;> rfl
theorem skipIf_pc (c : Bool) : (s.skipIf c).pc = if c then s.pc + 2 else s.pc := by cases c <;> rfl
@[simp] theorem skipIf_stack (c : Bool) : (s.skipIf c).stack = s.stack := by cases c <;> rfl
@[simp] theorem skipIf_dt (c : Bool) : (s.skipIf c).dt = s.dt := by cases c <;> rfl
@[simp] theorem skipIf_st (c : Bool) : (s.skipIf c).st = s.st := by cases c <;> rfl
@[simp] theorem skipIf_status (c : Bool) : (s.skipIf c).status = s.status := by cases c <;> rfl
@[simp] theorem skipIf_mem (c : Bool) : (s.skipIf c).mem = s.mem := by cases c <;> rfl
@[simp] theorem skipIf_fb (c : Bool) : (s.skipIf c).fb = s.fb := by cases c <;> rfl
@[simp] theorem skipIf_fbDirty (c : Bool) : (s.skipIf c).fbDirty = s.fbDirty := by cases c <;> rfl
@[simp] theorem skipIf_keyHeld (c : Bool) : (s.skipIf c).keyHeld = s.keyHeld := by cases c <;> rfl
@[simp] theorem skipIf_draws (c : Bool) : (s.skipIf c).draws = s.draws := by cases c <;> rfl
@[simp] theorem skipIf_schedule (c : Bool) : (s.skipIf c).schedule = s.schedule := by cases c <;> rfl
@[simp] theorem skipIf_boundary (c : Bool) : (s.skipIf c).boundary = s.boundary := by cases c <;> rfl

theorem reg_setReg (x y : Ix) (b : Byte) : (s.setReg x b).reg y = if y = x then b else s.reg y := by
  simp only [reg, setReg, Vector.getElem_set, Fin.ext_iff]
  exact if_congr eq_comm rfl rfl

@[simp] theorem reg_setReg_self (x : Ix) (b : Byte) : (s.setReg x b).reg x = b := by simp [reg_setReg]

theorem reg_setReg_of_ne {x y : Ix} (h : y ≠ x) (b : Byte) : (s.setReg x b).reg y = s.reg y := by simp [reg_setReg, h]

@[simp] theorem reg_setFlag_vF (c : Bool) : (s.setFlag c).reg vF = flagByte c := by simp [setFlag]

theorem reg_setFlag_of_ne {y : Ix} (h : y ≠ vF) (c : Bool) : (s.setFlag c).reg y = s.reg y := reg_setReg_of_ne s h _

@[simp] theorem reg_setRegFlag_vF (x : Ix) (b : Byte) (c : Bool) : (s.setRegFlag x b c).reg vF = flagByte c := by
  simp [setRegFlag]

theorem reg_setRegFlag_self {x : Ix} (h : x ≠ vF) (b : Byte) (c : Bool) : (s.setRegFlag x b c).reg x = b := by
  simp [setRegFlag, reg_setFlag_of_ne _ h]

theorem reg_setRegFlag_of_ne {x y : Ix} (hx : y ≠ x) (hf : y ≠ vF) (b : Byte) (c : Bool) :
    (s.setRegFlag x b c).reg y = s.reg y := by
  simp [setRegFlag, reg_setFlag_of_ne _ hf, reg_setReg_of_ne _ hx]

/-- A register depends on the register file alone. -/
theorem reg_congr {s t : State} (h : t.v = s.v) (x : Ix) : t.reg x = s.reg x := by simp [reg, h]

end Sys2Proof.Machine.State
end

