-- ==== Sys2Proof/Laws/Ops.lean ====
section
/-! SUPPORT. One lemma for each shared operation that says everything it can do. -/

namespace Sys2Proof.Machine

/-- A fault changes the status alone. -/
theorem raise_eq (f : Fault) (s : State) : raise f s = .next { s with status := .faulted f } := rfl

/-- A store lands whole inside the address space, or raises OutOfBounds and writes nothing. -/
theorem storeBytes_cases (s : State) (addr : Nat) (bytes : List Byte) :
    (addr + bytes.length ≤ Config.memSize ∧
      storeBytes s addr bytes = .next { s with mem := writeBytes s.mem addr bytes }) ∨
    (Config.memSize < addr + bytes.length ∧
      storeBytes s addr bytes = raise (.outOfBounds s.fetchedAt addr bytes.length) s) := by
  unfold storeBytes memWrite
  split <;> rename_i h
  · split at h
    · next hle => cases h; exact .inl ⟨hle, rfl⟩
    · cases h
  · split at h
    · cases h
    · next hgt => exact .inr ⟨by omega, rfl⟩

/-- A load continues with the bytes in place, or raises OutOfBounds before any other effect. -/
theorem withBytes_cases (s : State) (addr n : Nat) (use : List Byte → Host.Outcome State Fault Refusal) :
    (addr + n ≤ Config.memSize ∧ withBytes s addr n use = use (bytesAt s.mem addr n)) ∨
    (Config.memSize < addr + n ∧ withBytes s addr n use = raise (.outOfBounds s.fetchedAt addr n) s) := by
  unfold withBytes memRead
  split <;> rename_i h
  · split at h
    · next hle => cases h; exact .inl ⟨hle, rfl⟩
    · cases h
  · split at h
    · cases h
    · next hgt => exact .inr ⟨by omega, rfl⟩

/-- A byte is a hex value exactly when it is below 16. -/
theorem hexValue_eq_some {b : Byte} {k : Ix} : hexValue b = some k ↔ b.toNat = k.val := by
  unfold hexValue
  split
  · simp [Fin.ext_iff]
  · have := k.isLt
    simp only [reduceCtorEq, false_iff]
    omega

theorem hexValue_eq_none {b : Byte} : hexValue b = none ↔ 15 < b.toNat := by
  unfold hexValue
  split <;> simp <;> omega

/-! ## What a fetch reaches -/

/-- Two bytes below the last address. -/
theorem fetchWindow_two {s : State} (h : s.pc.toNat + 1 < Config.memSize) :
    fetchWindow s = [readByte s.mem s.pc.toNat, readByte s.mem (s.pc.toNat + 1)] := by
  have : min 2 (Config.memSize - s.pc.toNat) = 2 := by omega
  simp [fetchWindow, this, bytesAt, List.range_succ]

/-- One byte at the last address. -/
theorem fetchWindow_one {s : State} (h : s.pc.toNat + 1 = Config.memSize) :
    fetchWindow s = [readByte s.mem s.pc.toNat] := by
  have : min 2 (Config.memSize - s.pc.toNat) = 1 := by omega
  simp [fetchWindow, this, bytesAt, List.range_succ]

/-- None past it. -/
theorem fetchWindow_none {s : State} (h : Config.memSize ≤ s.pc.toNat) : fetchWindow s = [] := by
  have : min 2 (Config.memSize - s.pc.toNat) = 0 := by omega
  simp [fetchWindow, this, bytesAt]

/-- A fetch finds an instruction that decodes from the bytes at `pc`, or faults at `pc` or `pc + 1`. -/
theorem fetch_cases (s : State) :
    (∃ i, fetch s = .ok i ∧ ((i = .eof ∧ s.pc.toNat < Config.memSize) ∨ s.pc.toNat + 1 < Config.memSize)) ∨
    (Config.memSize ≤ s.pc.toNat ∧ fetch s = .error (.outOfBounds s.pc s.pc.toNat 1)) ∨
    (s.pc.toNat + 1 = Config.memSize ∧ fetch s = .error (.outOfBounds s.pc (s.pc.toNat + 1) 1)) := by
  by_cases h0 : Config.memSize ≤ s.pc.toNat
  · exact .inr (.inl ⟨h0, by simp [fetch, fetchWindow_none h0, decodeBytes]⟩)
  · by_cases h1 : s.pc.toNat + 1 = Config.memSize
    · by_cases hb : readByte s.mem s.pc.toNat = eofByte
      · exact .inl ⟨.eof, by simp [fetch, fetchWindow_one h1, decodeBytes, hb], .inl ⟨rfl, by omega⟩⟩
      · exact .inr (.inr ⟨h1, by simp [fetch, fetchWindow_one h1, decodeBytes, hb]⟩)
    · have h2 : s.pc.toNat + 1 < Config.memSize := by omega
      by_cases hb : readByte s.mem s.pc.toNat = eofByte
      · exact .inl ⟨.eof, by simp [fetch, fetchWindow_two h2, decodeBytes, hb], .inr h2⟩
      · exact .inl ⟨_, by simp [fetch, fetchWindow_two h2, decodeBytes, hb]; rfl, .inr h2⟩

/-! ## Registers from a block -/

theorem getElem_loadRegs (v : Regs) (k : Nat) (bytes : List Byte) (j : Nat) (hj : j < 16) :
    (loadRegs v k bytes)[j] = if k ≤ j ∧ j < k + bytes.length then bytes.getD (j - k) 0 else v[j] := by
  induction bytes generalizing v k with
  | nil =>
    have : ¬ (k ≤ j ∧ j < k + 0) := by omega
    simp only [loadRegs, List.length_nil, this, if_false]
  | cons b bs ih =>
    rw [loadRegs, ih]
    simp only [List.length_cons]
    by_cases h1 : k = j
    · subst h1
      have h2 : ¬ (k + 1 ≤ k ∧ k < k + 1 + bs.length) := by omega
      simp
    · by_cases h2 : k + 1 ≤ j ∧ j < k + 1 + bs.length
      · obtain ⟨d, hd⟩ : ∃ d, j - k = d + 1 := ⟨j - k - 1, by omega⟩
        have h4 : j - (k + 1) = d := by omega
        rw [if_pos h2, if_pos (by omega), hd, h4, List.getD_cons_succ]
      · rw [if_neg h2, if_neg (by omega), Vector.getElem_setIfInBounds_ne (by exact hj) h1]

/-! ## The framebuffer -/

/-- A pixel after a pixel is set: on the grid the set one holds the new value, every other is as before. -/
theorem pixel_setPixel (fb : Framebuffer) (x y : Nat) (b : Bool) (x' y' : Nat) :
    pixel (setPixel fb x y b) x' y' =
      if x < 64 ∧ y < 32 ∧ x' = x ∧ y' = y then b else pixel fb x' y' := by
  unfold pixel setPixel
  by_cases h : x < 64 ∧ y < 32
  · by_cases h' : x' < 64 ∧ y' < 32
    · simp only [h, h', and_self, dif_pos, Vector.getElem_set]
      by_cases hy : y = y'
      · subst hy
        by_cases hx : x = x'
        · subst hx; simp
        · simp [hx, Ne.symm hx]
      · simp [hy, Ne.symm hy]
    · have : ¬ (x < 64 ∧ y < 32 ∧ x' = x ∧ y' = y) := by omega
      simp [h', this]
  · have : ¬ (x < 64 ∧ y < 32 ∧ x' = x ∧ y' = y) := by omega
    simp [h, this]

@[simp] theorem pixel_clearedFb (x y : Nat) : pixel clearedFb x y = false := by
  unfold pixel clearedFb
  split <;> simp

/-- A framebuffer is its pixels. -/
theorem framebuffer_ext {fb fb' : Framebuffer} (h : ∀ x y, x < 64 → y < 32 → pixel fb x y = pixel fb' x y) : fb = fb' := by
  apply Vector.ext
  intro y hy
  apply Vector.ext
  intro x hx
  have := h x y hx hy
  simpa [pixel, hx, hy] using this

/-! ## A boundary -/

/-- What an event never touches: memory, `I`, `pc`, the stack, the framebuffer, the draws, the schedule. -/
theorem deliver_frame (s : State) (e : Event) :
    (Event.deliver s e).mem = s.mem ∧ (Event.deliver s e).i = s.i ∧ (Event.deliver s e).pc = s.pc ∧
    (Event.deliver s e).stack = s.stack ∧ (Event.deliver s e).fb = s.fb ∧ (Event.deliver s e).draws = s.draws ∧
    (Event.deliver s e).schedule = s.schedule ∧ (Event.deliver s e).boundary = s.boundary := by
  cases e with
  | keyDown k =>
    simp only [Event.deliver, State.wakeOn]
    split <;> simp
  | _ => simp [Event.deliver, State.readout]

/-- DT moves only on its own tick. -/
theorem deliver_dt (s : State) (e : Event) : (Event.deliver s e).dt = if e = .tickDT then tick s.dt else s.dt := by
  cases e with
  | keyDown k =>
    simp only [Event.deliver, State.wakeOn]
    split <;> simp
  | _ => simp [Event.deliver, State.readout]

/-- ST moves only on its own tick. -/
theorem deliver_st (s : State) (e : Event) : (Event.deliver s e).st = if e = .tickST then tick s.st else s.st := by
  cases e with
  | keyDown k =>
    simp only [Event.deliver, State.wakeOn]
    split <;> simp
  | _ => simp [Event.deliver, State.readout]

/-- The dirty flag moves only on a readout. -/
theorem deliver_fbDirty (s : State) (e : Event) :
    (Event.deliver s e).fbDirty = if e = .readout then false else s.fbDirty := by
  cases e with
  | keyDown k =>
    simp only [Event.deliver, State.wakeOn]
    split <;> simp
  | _ => simp [Event.deliver, State.readout]

/-- A key moves only on its own press and release. -/
theorem deliver_keyHeld (s : State) (e : Event) (k : Ix) :
    (Event.deliver s e).keyHeld[k.val] =
      if e = .keyDown k then true else if e = .keyUp k then false else s.keyHeld[k.val] := by
  cases e with
  | keyDown j =>
    have woken : (Event.deliver s (.keyDown j)).keyHeld = s.keyHeld.set j.val true := by
      simp only [Event.deliver, State.wakeOn]
      split <;> simp
    simp [woken, Vector.getElem_set, Fin.ext_iff]
  | keyUp j => simp [Event.deliver, Vector.getElem_set, Fin.ext_iff]
  | _ => simp [Event.deliver, State.readout]

/-- Outside a wait an event touches neither the status nor a general register. -/
theorem deliver_not_waiting {s : State} (h : ∀ x, s.status ≠ .waitKey x) (e : Event) :
    (Event.deliver s e).status = s.status ∧ (Event.deliver s e).v = s.v := by
  cases e with
  | keyDown k =>
    simp only [Event.deliver, State.wakeOn]
    split
    · next x hx => exact absurd hx (h x)
    · simp
  | _ => simp [Event.deliver, State.readout]

/-- What a group of events never touches. -/
theorem foldl_deliver_frame (group : List Event) (s : State) :
    (group.foldl Event.deliver s).mem = s.mem ∧ (group.foldl Event.deliver s).i = s.i ∧
    (group.foldl Event.deliver s).pc = s.pc ∧ (group.foldl Event.deliver s).stack = s.stack ∧
    (group.foldl Event.deliver s).fb = s.fb ∧ (group.foldl Event.deliver s).draws = s.draws ∧
    (group.foldl Event.deliver s).schedule = s.schedule ∧ (group.foldl Event.deliver s).boundary = s.boundary := by
  induction group generalizing s with
  | nil => simp
  | cons e group ih =>
    have first := deliver_frame s e
    have rest := ih (Event.deliver s e)
    simp only [List.foldl_cons]
    simp_all

/-- Outside a wait a group of events touches neither the status nor a general register. -/
theorem foldl_deliver_not_waiting (group : List Event) {s : State} (h : ∀ x, s.status ≠ .waitKey x) :
    (group.foldl Event.deliver s).status = s.status ∧ (group.foldl Event.deliver s).v = s.v := by
  induction group generalizing s with
  | nil => exact ⟨rfl, rfl⟩
  | cons e group ih =>
    have first := deliver_not_waiting h e
    have rest := ih (s := Event.deliver s e) (by rw [first.1]; exact h)
    rw [List.foldl_cons, rest.1, rest.2]
    exact first

/-- Landing a group is delivering its events one after the other. -/
theorem land_eq_foldl (s : State) (group : List Event) : s.land group = group.foldl Event.deliver s := by
  have frame := foldl_deliver_frame group s
  have still : s.status.waits = false →
      (group.foldl Event.deliver s).status = s.status ∧ (group.foldl Event.deliver s).v = s.v := fun h =>
    foldl_deliver_not_waiting group fun x hx => by simp [hx, Status.waits] at h
  unfold State.land
  generalize group.foldl Event.deliver s = t at *
  cases t
  by_cases h : s.status.waits <;> simp_all

/-- The events due: the head group where one is given. -/
@[simp] theorem dueEvents_of_cons {s : State} {group : List Event} {later : List (List Event)}
    (h : s.schedule = group :: later) : s.dueEvents = group := by simp [State.dueEvents, h]

/-- The events due: the free schedule's group where none is given. -/
@[simp] theorem dueEvents_of_nil {s : State} (h : s.schedule = []) : s.dueEvents = Config.scheduledEvents s.boundary := by
  simp [State.dueEvents, h]

/-- A boundary delivers the due events one after the other. -/
theorem landEvents_eq_foldl (s : State) : s.landEvents = s.dueEvents.foldl Event.deliver s.passBoundary :=
  land_eq_foldl _ _

/-- What a boundary never touches, and how it moves the schedule on. -/
theorem landEvents_frame (s : State) :
    s.landEvents.mem = s.mem ∧ s.landEvents.i = s.i ∧ s.landEvents.pc = s.pc ∧ s.landEvents.stack = s.stack ∧
    s.landEvents.fb = s.fb ∧ s.landEvents.draws = s.draws ∧ s.landEvents.schedule = s.schedule.tail ∧
    s.landEvents.boundary = s.boundary + 1 := ⟨rfl, rfl, rfl, rfl, rfl, rfl, rfl, rfl⟩

/-- Where no event is due, a boundary only moves the schedule on. -/
theorem landEvents_of_no_event {s : State} (h : s.dueEvents = []) : s.landEvents = s.passBoundary := by
  rw [landEvents_eq_foldl, h, List.foldl_nil]

end Sys2Proof.Machine
end

