-- ==== Sys2Proof/Laws/PerInstr.lean ====
section
/-! SUPPORT. Families of statements about every instruction as syntax, one lemma for each constructor. -/

namespace Sys2Proof.Laws.EncodedLength

/-- The encoder lays out as many bytes as the form has: one for the sentinel, two for every other (30_encoding R80). -/
def Statement (i : Instr) : Prop := (encode i).length = i.size

theorem eof : Statement (.eof) := rfl
theorem cls : Statement (.cls) := rfl
theorem ret : Statement (.ret) := rfl
theorem jp (nnn : Addr12) : Statement (.jp nnn) := rfl
theorem call (nnn : Addr12) : Statement (.call nnn) := rfl
theorem seImm (x : Ix) (nn : Byte) : Statement (.seImm x nn) := rfl
theorem sneImm (x : Ix) (nn : Byte) : Statement (.sneImm x nn) := rfl
theorem seReg (x y : Ix) : Statement (.seReg x y) := rfl
theorem ldImm (x : Ix) (nn : Byte) : Statement (.ldImm x nn) := rfl
theorem addImm (x : Ix) (nn : Byte) : Statement (.addImm x nn) := rfl
theorem ldReg (x y : Ix) : Statement (.ldReg x y) := rfl
theorem orReg (x y : Ix) : Statement (.orReg x y) := rfl
theorem andReg (x y : Ix) : Statement (.andReg x y) := rfl
theorem xorReg (x y : Ix) : Statement (.xorReg x y) := rfl
theorem addReg (x y : Ix) : Statement (.addReg x y) := rfl
theorem sub (x y : Ix) : Statement (.sub x y) := rfl
theorem shr (x y : Ix) : Statement (.shr x y) := rfl
theorem subn (x y : Ix) : Statement (.subn x y) := rfl
theorem shl (x y : Ix) : Statement (.shl x y) := rfl
theorem sneReg (x y : Ix) : Statement (.sneReg x y) := rfl
theorem ldI (nnn : Addr12) : Statement (.ldI nnn) := rfl
theorem jpV0 (nnn : Addr12) : Statement (.jpV0 nnn) := rfl
theorem rnd (x : Ix) (nn : Byte) : Statement (.rnd x nn) := rfl
theorem drw (x y n : Ix) : Statement (.drw x y n) := rfl
theorem skp (x : Ix) : Statement (.skp x) := rfl
theorem sknp (x : Ix) : Statement (.sknp x) := rfl
theorem ldVxDT (x : Ix) : Statement (.ldVxDT x) := rfl
theorem ldVxK (x : Ix) : Statement (.ldVxK x) := rfl
theorem ldDTVx (x : Ix) : Statement (.ldDTVx x) := rfl
theorem ldSTVx (x : Ix) : Statement (.ldSTVx x) := rfl
theorem addI (x : Ix) : Statement (.addI x) := rfl
theorem ldF (x : Ix) : Statement (.ldF x) := rfl
theorem ldB (x : Ix) : Statement (.ldB x) := rfl
theorem ldMemFromRegs (x : Ix) : Statement (.ldMemFromRegs x) := rfl
theorem ldRegsFromMem (x : Ix) : Statement (.ldRegsFromMem x) := rfl
theorem unknown (word : Word) : Statement (.unknown word) := rfl

end Sys2Proof.Laws.EncodedLength
end

