-- ==== Sys2Proof/Tests/Slice0.lean ====
section
/-! SUPPORT. The model's own tests: words written out from 30_encoding R85, the smoke tests of WellFormed, single steps with the
results of spec/95_test_vectors (named C-n, A-n, M-n, D-n, T-n there), and a witness for the hypotheses of each statement. -/

namespace Sys2Proof.Tests

open Sys2Proof.Machine

/-! ## WellFormed: the one check, that an UNKNOWN's word matches no other row, family by family (30_encoding R86) -/

theorem test_illFormed_family0 :
    ([0x00E0, 0x00EE, 0x0A00, 0x0AFF].map fun w => (Instr.unknown w).wellFormed) = [false, false, false, false] := by decide

theorem test_illFormed_fullFamilies :
    ([0x1234, 0x2210, 0x3305, 0x4305, 0x6005, 0x7002, 0xA300, 0xB300, 0xC30F, 0xD011].map
      fun w => (Instr.unknown w).wellFormed).all (· == false) = true := by decide

theorem test_illFormed_subOpcodes :
    ([0x5120, 0x9120, 0x8120, 0x8127, 0x812E, 0xE19E, 0xE1A1, 0xF307, 0xF50A, 0xF015, 0xF018, 0xF01E, 0xF029, 0xF033,
      0xF055, 0xF065].map fun w => (Instr.unknown w).wellFormed).all (· == false) = true := by decide

/-- The words 95 gives as UNKNOWN (C-33 to C-38, A-42, T-21, T-22). -/
theorem test_wellFormed_unknown :
    ([0x5121, 0x0123, 0x0000, 0x00E1, 0x912F, 0x8128, 0xF0FF, 0xE09F].map
      fun w => (Instr.unknown w).wellFormed).all (· == true) = true := by decide

/-! ## Decoding: a word of each row of 30_encoding R85 -/

theorem test_decode_eof : decodeBytes [0x0A] = .ok (.eof, []) ∧ decodeTableWord 16 0x0A00 = some .eof := ⟨rfl, by decide⟩
theorem test_decode_cls : decodeTableWord 16 0x00E0 = some .cls := by decide
theorem test_decode_ret : decodeTableWord 16 0x00EE = some .ret := by decide
theorem test_decode_jp : decodeTableWord 16 0x1ABC = some (.jp 0xABC) := by decide
theorem test_decode_call : decodeTableWord 16 0x2210 = some (.call 0x210) := by decide
theorem test_decode_seImm : decodeTableWord 16 0x3A5C = some (.seImm 0xA 0x5C) := by decide
theorem test_decode_sneImm : decodeTableWord 16 0x4305 = some (.sneImm 0x3 0x05) := by decide
theorem test_decode_seReg : decodeTableWord 16 0x5AB0 = some (.seReg 0xA 0xB) := by decide
theorem test_decode_ldImm : decodeTableWord 16 0x6F12 = some (.ldImm 0xF 0x12) := by decide
theorem test_decode_addImm : decodeTableWord 16 0x7002 = some (.addImm 0x0 0x02) := by decide
theorem test_decode_ldReg : decodeTableWord 16 0x8120 = some (.ldReg 0x1 0x2) := by decide
theorem test_decode_orReg : decodeTableWord 16 0x8121 = some (.orReg 0x1 0x2) := by decide
theorem test_decode_andReg : decodeTableWord 16 0x8122 = some (.andReg 0x1 0x2) := by decide
theorem test_decode_xorReg : decodeTableWord 16 0x8123 = some (.xorReg 0x1 0x2) := by decide
theorem test_decode_addReg : decodeTableWord 16 0x8124 = some (.addReg 0x1 0x2) := by decide
theorem test_decode_sub : decodeTableWord 16 0x8125 = some (.sub 0x1 0x2) := by decide
theorem test_decode_shr : decodeTableWord 16 0x8126 = some (.shr 0x1 0x2) := by decide
theorem test_decode_subn : decodeTableWord 16 0x8127 = some (.subn 0x1 0x2) := by decide
theorem test_decode_shl : decodeTableWord 16 0x812E = some (.shl 0x1 0x2) := by decide
theorem test_decode_sneReg : decodeTableWord 16 0x9120 = some (.sneReg 0x1 0x2) := by decide
theorem test_decode_ldI : decodeTableWord 16 0xA300 = some (.ldI 0x300) := by decide
theorem test_decode_jpV0 : decodeTableWord 16 0xBFFF = some (.jpV0 0xFFF) := by decide
theorem test_decode_rnd : decodeTableWord 16 0xC30F = some (.rnd 0x3 0x0F) := by decide
theorem test_decode_drw : decodeTableWord 16 0xD3B7 = some (.drw 0x3 0xB 0x7) := by decide
theorem test_decode_skp : decodeTableWord 16 0xE19E = some (.skp 0x1) := by decide
theorem test_decode_sknp : decodeTableWord 16 0xE1A1 = some (.sknp 0x1) := by decide
theorem test_decode_ldVxDT : decodeTableWord 16 0xF307 = some (.ldVxDT 0x3) := by decide
theorem test_decode_ldVxK : decodeTableWord 16 0xF50A = some (.ldVxK 0x5) := by decide
theorem test_decode_ldDTVx : decodeTableWord 16 0xF015 = some (.ldDTVx 0x0) := by decide
theorem test_decode_ldSTVx : decodeTableWord 16 0xF018 = some (.ldSTVx 0x0) := by decide
theorem test_decode_addI : decodeTableWord 16 0xFF1E = some (.addI 0xF) := by decide
theorem test_decode_ldF : decodeTableWord 16 0xF029 = some (.ldF 0x0) := by decide
theorem test_decode_ldB : decodeTableWord 16 0xFA33 = some (.ldB 0xA) := by decide
theorem test_decode_ldMemFromRegs : decodeTableWord 16 0xF255 = some (.ldMemFromRegs 0x2) := by decide
theorem test_decode_ldRegsFromMem : decodeTableWord 16 0xF265 = some (.ldRegsFromMem 0x2) := by decide
theorem test_decode_unknown : decodeTableWord 16 0x5AB1 = some (.unknown 0x5AB1) := by decide

/-- The encoder on the words above that use every format of 30_encoding R82. -/
theorem test_encode_formats :
    [encode .eof, encode .cls, encode (.jp 0xABC), encode (.seImm 0xA 0x5C), encode (.shl 1 2), encode (.drw 3 0xB 7),
      encode (.ldB 0xA)] =
    [[0x0A], [0x00, 0xE0], [0x1A, 0xBC], [0x3A, 0x5C], [0x81, 0x2E], [0xD3, 0xB7], [0xFA, 0x33]] := by decide

/-! ## Single steps -/

/-- The outcome is a next state of which `p` holds. -/
def nextIs (o : Host.Outcome State Fault Refusal) (p : State → Bool) : Bool :=
  match o with
  | .next t => p t
  | _ => false

/-- The reset state with some registers set. -/
def regs (l : List (Ix × Byte)) : State := l.foldl (fun s p => s.setReg p.1 p.2) State.reset

/-- A step from `s` with the word `w` at its pc. -/
def runs (w : Nat) (s : State) (p : State → Bool) : Bool := nextIs (step (s.withFetchWord 16 w)) p

/-- The state with no event at the next boundary. -/
def quiet (s : State) : State := { s with schedule := [[]] }

/-- A stack of `n` entries 0x202. -/
def deep (n : Nat) : State := { State.reset with stack := List.replicate n 0x202 }

theorem test_step_eof_lastByte : -- C-2
    nextIs (step (quiet { State.reset with pc := 0xFFF, mem := [(0xFFF, 0x0A)] }))
      (fun t => t.pc == 0x1001 && t.status == .halted) = true := by decide
theorem test_step_fetch_secondByte : -- C-3
    nextIs (step (quiet { State.reset with pc := 0xFFF, mem := [(0xFFF, 0x12)] }))
      (fun t => t.pc == 0xFFF && t.status == .faulted (.outOfBounds 0xFFF 0x1000 1)) = true := by decide
theorem test_step_fetch_firstByte : -- C-4
    nextIs (step (quiet { State.reset with pc := 0x1000 }))
      (fun t => t.pc == 0x1000 && t.status == .faulted (.outOfBounds 0x1000 0x1000 1)) = true := by decide
theorem test_step_jp_odd : runs 0x1203 State.reset (fun t => t.pc == 0x203) = true := by decide -- C-8
theorem test_step_call : -- C-10
    runs 0x2210 { State.reset with pc := 0x204 } (fun t => t.pc == 0x210 && t.stack == [0x206]) = true := by decide
theorem test_step_call_overflow : -- C-13
    runs 0x2400 (deep 16) (fun t => t.pc == 0x202 && t.stack.length == 16 && t.status == .faulted (.stackOverflow 0x200)) =
      true := by decide
theorem test_step_ret_top : -- C-16
    runs 0x00EE { State.reset with stack := [0x20A, 0x30C] } (fun t => t.pc == 0x30C && t.stack == [0x20A]) = true := by decide
theorem test_step_ret_underflow : -- C-15
    runs 0x00EE State.reset (fun t => t.pc == 0x202 && t.status == .faulted (.stackUnderflow 0x200)) = true := by decide
theorem test_step_seImm : -- C-17, C-18
    (runs 0x3305 { regs [(3, 5)] with pc := 0x208 } (fun t => t.pc == 0x20C) &&
      runs 0x3305 { regs [(3, 6)] with pc := 0x208 } (fun t => t.pc == 0x20A)) = true := by decide
theorem test_step_sneImm : -- C-19, C-20
    (runs 0x4305 { regs [(3, 5)] with pc := 0x208 } (fun t => t.pc == 0x20A) &&
      runs 0x4305 { regs [(3, 6)] with pc := 0x208 } (fun t => t.pc == 0x20C)) = true := by decide
theorem test_step_seReg : -- C-22, C-23
    (runs 0x5120 (regs [(1, 0x10), (2, 0x10)]) (fun t => t.pc == 0x204) &&
      runs 0x5120 (regs [(1, 0x10), (2, 0x11)]) (fun t => t.pc == 0x202)) = true := by decide
theorem test_step_sneReg : -- C-25, C-26
    (runs 0x9120 (regs [(1, 0x10), (2, 0x11)]) (fun t => t.pc == 0x204) &&
      runs 0x9440 (regs [(4, 7)]) (fun t => t.pc == 0x202)) = true := by decide
theorem test_step_jpV0_noMask : runs 0xBFFF (regs [(0, 0xFF)]) (fun t => t.pc == 0x10FE) = true := by decide -- C-31
theorem test_step_jpV0_V0 : runs 0xB300 (regs [(3, 0x55)]) (fun t => t.pc == 0x300) = true := by decide -- C-32
theorem test_step_unknown : -- C-33
    runs 0x5121 State.reset (fun t => t.pc == 0x202 && t.status == .faulted (.unknownInstruction 0x200 0x5121)) = true := by
  decide

theorem test_step_ldImm : runs 0x6F12 State.reset (fun t => t.reg 15 == 0x12) = true := by decide -- A-2
theorem test_step_addImm : -- A-3
    runs 0x7002 (regs [(0, 0xFF), (15, 0x77)]) (fun t => t.reg 0 == 0x01 && t.reg 15 == 0x77) = true := by decide
theorem test_step_ldReg : runs 0x8120 (regs [(2, 0x7F)]) (fun t => t.reg 1 == 0x7F && t.reg 2 == 0x7F) = true := by decide -- A-5
theorem test_step_or : -- A-6
    runs 0x8121 (regs [(1, 0x0F), (2, 0xF0), (15, 0x33)]) (fun t => t.reg 1 == 0xFF && t.reg 15 == 0x33) = true := by decide
theorem test_step_and : -- A-7
    runs 0x8122 (regs [(1, 0x3C), (2, 0x0F), (15, 0x33)]) (fun t => t.reg 1 == 0x0C && t.reg 15 == 0x33) = true := by decide
theorem test_step_xor : -- A-8
    runs 0x8123 (regs [(1, 0xFF), (2, 0x0F), (15, 0x33)]) (fun t => t.reg 1 == 0xF0 && t.reg 15 == 0x33) = true := by decide
theorem test_step_addReg_vF : -- A-16, A-17
    (runs 0x8F14 (regs [(15, 0xFF), (1, 0x01)]) (fun t => t.reg 15 == 0x01) &&
      runs 0x81F4 (regs [(15, 0xFF), (1, 0x01)]) (fun t => t.reg 1 == 0x00 && t.reg 15 == 0x01)) = true := by decide
theorem test_step_addReg : -- A-11
    runs 0x8124 (regs [(1, 1), (2, 1)]) (fun t => t.reg 1 == 2 && t.reg 15 == 0) = true := by decide
theorem test_step_sub : -- A-19
    runs 0x8125 (regs [(1, 3), (2, 5)]) (fun t => t.reg 1 == 0xFE && t.reg 15 == 0) = true := by decide
theorem test_step_sub_equal : -- A-20
    runs 0x8125 (regs [(1, 7), (2, 7)]) (fun t => t.reg 1 == 0 && t.reg 15 == 1) = true := by decide
theorem test_step_shr : -- A-24, A-28
    (runs 0x8106 (regs [(1, 5)]) (fun t => t.reg 1 == 2 && t.reg 15 == 1) &&
      runs 0x8126 (regs [(1, 4), (2, 0xFF)]) (fun t => t.reg 1 == 2 && t.reg 15 == 0)) = true := by decide
theorem test_step_subn : -- A-31, A-32
    (runs 0x8127 (regs [(1, 3), (2, 5)]) (fun t => t.reg 1 == 2 && t.reg 15 == 1) &&
      runs 0x8127 (regs [(1, 5), (2, 3)]) (fun t => t.reg 1 == 0xFE && t.reg 15 == 0)) = true := by decide
theorem test_step_shl : -- A-34, A-37
    (runs 0x810E (regs [(1, 0x81)]) (fun t => t.reg 1 == 2 && t.reg 15 == 1) &&
      runs 0x812E (regs [(1, 1), (2, 0x80)]) (fun t => t.reg 1 == 2 && t.reg 15 == 0)) = true := by decide
/-- A-40: whatever the draw, a mask of 0 gives 0; here the draws made are counted. -/
theorem test_step_rnd_counts : runs 0xC300 State.reset (fun t => t.draws == 1 && t.pc == 0x202) = true := by decide

theorem test_step_ldI : runs 0xAFFF State.reset (fun t => t.i == 0x0FFF) = true := by decide -- M-2
theorem test_step_addI_vF : -- M-3
    runs 0xFF1E { regs [(15, 0xFF)] with i := 0x0010 } (fun t => t.i == 0x010F && t.reg 15 == 0) = true := by decide
theorem test_step_addI_wrap : -- M-7
    runs 0xF01E { regs [(0, 0x20)] with i := 0xFFF0 } (fun t => t.i == 0x0010 && t.reg 15 == 1) = true := by decide
theorem test_step_ldF : runs 0xF029 (regs [(0, 0x0F)]) (fun t => t.i == 0x009B) = true := by decide -- M-10
theorem test_step_ldF_invalid : -- M-11
    runs 0xF029 { regs [(0, 0x10)] with i := 0x300 }
      (fun t => t.i == 0x300 && t.pc == 0x202 && t.status == .faulted (.invalidDigit 0x200 0x10)) = true := by decide
theorem test_step_ldB : -- M-16
    runs 0xF033 { regs [(0, 0x7B)] with i := 0xFFD } (fun t => bytesAt t.mem 0xFFD 3 == [1, 2, 3]) = true := by decide
theorem test_step_ldB_bounds : -- M-17
    runs 0xF033 { regs [(0, 0x7B)] with i := 0xFFE }
      (fun t => readByte t.mem 0xFFE == 0 && t.status == .faulted (.outOfBounds 0x200 0xFFE 3)) = true := by decide
theorem test_step_ldMemFromRegs : -- M-19
    runs 0xF255 { regs [(0, 1), (1, 2), (2, 3)] with i := 0x400 }
      (fun t => bytesAt t.mem 0x400 4 == [1, 2, 3, 0] && t.i == 0x400) = true := by decide
theorem test_step_ldMemFromRegs_bounds : -- M-21
    runs 0xFF55 { State.reset with i := 0xFF1 } (fun t => t.status == .faulted (.outOfBounds 0x200 0xFF1 0x10)) = true := by
  decide
theorem test_step_ldRegsFromMem_font : -- M-26
    runs 0xF465 { State.reset with i := 0x050 }
      (fun t => ([0, 1, 2, 3, 4, 5] : List Ix).map t.reg == [0xF0, 0x90, 0x90, 0x90, 0xF0, 0] && t.i == 0x050) = true := by decide
theorem test_step_ldRegsFromMem_bounds : -- M-25
    runs 0xF065 { State.reset with i := 0x1000 } (fun t => t.status == .faulted (.outOfBounds 0x200 0x1000 1)) = true := by
  decide

theorem test_step_cls : -- D-1
    runs 0x00E0 { regs [(15, 9)] with fb := setPixel clearedFb 5 6 true }
      (fun t => !pixel t.fb 5 6 && t.fbDirty && t.reg 15 == 9) = true := by decide
theorem test_step_drw_clip : -- D-5
    runs 0xD011 { regs [(0, 60)] with i := 0x300, mem := [(0x300, 0xFF)] }
      (fun t => ([59, 60, 63, 0, 3].map fun x => pixel t.fb x 0) == [false, true, true, false, false] && t.reg 15 == 0 &&
        t.fbDirty) = true := by decide
theorem test_step_drw_collision : -- D-9
    runs 0xD011 { State.reset with i := 0x300, mem := [(0x300, 0xC0)], fb := setPixel clearedFb 0 0 true }
      (fun t => !pixel t.fb 0 0 && pixel t.fb 1 0 && !pixel t.fb 2 0 && t.reg 15 == 1) = true := by decide

theorem test_step_ldVxDT : runs 0xF307 { State.reset with dt := 0x0A } (fun t => t.reg 3 == 0x0A) = true := by decide -- T-1
theorem test_step_ldDTVx : runs 0xF015 (regs [(0, 0x3C)]) (fun t => t.dt == 0x3C) = true := by decide -- T-2
theorem test_step_ldSTVx : runs 0xF018 (regs [(0, 2)]) (fun t => t.st == 2 && t.tone) = true := by decide -- T-3
theorem test_step_skp : -- T-8, T-10
    (runs 0xE19E ((regs [(1, 0x0A)]).setKey 10 true) (fun t => t.pc == 0x204) &&
      runs 0xE19E (regs [(1, 0x10)]) (fun t => t.pc == 0x202 && t.status == .faulted (.invalidKey 0x200 0x10))) = true := by
  decide
theorem test_step_sknp : -- T-11, T-12
    (runs 0xE1A1 (regs [(1, 0x0A)]) (fun t => t.pc == 0x204) &&
      runs 0xE1A1 ((regs [(1, 0x0A)]).setKey 10 true) (fun t => t.pc == 0x202)) = true := by decide
theorem test_step_ldVxK : -- T-14
    runs 0xF50A State.reset (fun t => t.pc == 0x202 && t.status == .waitKey 5 && t.reg 5 == 0) = true := by decide
/-- T-15, T-19: in one boundary of a wait the delay timer ticks and the press of C ends the wait; the CPU then runs the word
at `pc`. -/
theorem test_step_wait_ends :
    nextIs (step { State.reset with status := .waitKey 5, dt := 5, schedule := [[.tickDT, .keyDown 12]], mem := [(0x200, 0x12)] })
      (fun t => t.reg 5 == 0x0C && t.keyHeld[12] && t.dt == 4 && t.status == .running && t.pc == 0x200 && t.schedule == []) =
      true := by decide
/-- T-16: a key held before the wait does not end it. -/
theorem test_step_wait_held :
    nextIs (step (quiet ({ State.reset with status := .waitKey 5 }.setKey 3 true))) (fun t => t.status == .waitKey 5 && t.pc == 0x200) =
      true := by decide

/-! ## Witnesses: for each statement with hypotheses, a concrete case that meets them, clause by clause at its boundary -/

theorem witness_DecodeOfEncodeIsIdentity :
    (Instr.unknown 0x5121).wellFormed = true ∧ (Instr.drw 15 15 15).wellFormed = true ∧ Instr.eof.wellFormed = true := by decide

theorem witness_EncodeOfDecodeIsIdentity : decodeBytes [0x0A, 0xFF] = .ok (.eof, [0xFF]) ∧
    decodeBytes [0x0B, 0xFF, 0x01] = .ok (.unknown 0x0BFF, [0x01]) := ⟨rfl, rfl⟩

theorem witness_WordsOfNoRowAreUnknownAndFatal :
    (∀ row ∈ opcodeRows, matchesRow 0xFFFF row = false) ∧ (∃ row ∈ opcodeRows, matchesRow 0xFF65 row = true) := by
  refine ⟨?_, (0xF0FF, 0xF065), by simp [opcodeRows], by decide⟩
  have none : (opcodeRows.all fun row => matchesRow 0xFFFF row == false) = true := by decide
  simpa using none

theorem witness_DecodedFieldsAreTheWordsSubfields :
    ([0x1FFF, 0x2FFF, 0x3FFF, 0x4FFF, 0x5FF0, 0x6FFF, 0x7FFF, 0x9FF0, 0xAFFF, 0xBFFF, 0xCFFF, 0xDFFF] : List Word).map
      (fun w => (isUnknownWord w, w.toNat / 4096)) =
    [(false, 0x1), (false, 0x2), (false, 0x3), (false, 0x4), (false, 0x5), (false, 0x6), (false, 0x7), (false, 0x9),
      (false, 0xA), (false, 0xB), (false, 0xC), (false, 0xD)] := by decide

/-- The sentinel at the last byte, the last word of memory, a pc past the end, the last byte alone, and a halted CPU. -/
theorem witness_CpuStepFetchesAdvancesAndExecutes :
    (let s : State := { State.reset with pc := 0xFFF, mem := [(0xFFF, 0x0A)] };
      s.status = .running ∧ s.pc.toNat < 4096 ∧ readByte s.mem s.pc.toNat = 0x0A) ∧
    (let s : State := { State.reset with pc := 0xFFE, mem := [(0xFFE, 0x60), (0xFFF, 5)] };
      s.status = .running ∧ s.pc.toNat + 1 < 4096 ∧ readByte s.mem s.pc.toNat ≠ 0x0A) ∧
    (let s : State := { State.reset with pc := 0x1000 };
      s.status = .running ∧ s.pc.toNat ≥ 4096) ∧
    (let s : State := { State.reset with pc := 0xFFF };
      s.status = .running ∧ s.pc.toNat = 4095 ∧ readByte s.mem 4095 ≠ 0x0A) ∧
    ({ State.reset with status := .halted } : State).status ≠ .running := by decide

theorem witness_StepRunsTheDecodedInstruction :
    (let u := ({ State.reset with pc := 0xFFE, mem := [(0xFFE, 0x60), (0xFFF, 5)] } : State).landEvents;
      u.status = .running ∧ u.pc.toNat + 2 ≤ 4096 ∧ decodeBytes (bytesAt u.mem u.pc.toNat 2) = .ok (.ldImm 0 5, [])) ∧
    (let u := ({ State.reset with pc := 0xFFF, mem := [(0xFFF, 0x0A)] } : State).landEvents;
      u.status = .running ∧ u.pc.toNat + 1 ≤ 4096 ∧ decodeBytes (bytesAt u.mem u.pc.toNat 1) = .ok (.eof, [])) :=
  ⟨⟨by decide, by decide, rfl⟩, ⟨by decide, by decide, rfl⟩⟩

theorem witness_HaltedIsFinal :
    (({ State.reset with status := .halted } : State).status = .halted ∧
      (quiet { State.reset with status := .halted }).dueEvents = []) ∧
    ∃ t, step { State.reset with mem := [(0x200, 0x0A)] } = .next t ∧ t.status = .halted ∧ State.reset.status ≠ .halted :=
  ⟨by decide, _, rfl, by decide, by decide⟩

theorem witness_FaultedIsTerminal :
    ({ State.reset with status := .faulted (.stackUnderflow 0x200) } : State).status = .faulted (.stackUnderflow 0x200) := by
  decide

theorem witness_KeyWaitHoldsUntilAPress :
    (let s : State := { State.reset with status := .waitKey 15, schedule := [[.tickDT, .keyUp 3, .readout], [.keyDown 3]] };
      s.status = .waitKey 15 ∧ ∀ e ∈ s.dueEvents, ∀ k, e ≠ .keyDown k) := by
  refine ⟨by decide, fun e he k => ?_⟩
  simp only [State.dueEvents, List.mem_cons, List.not_mem_nil, or_false] at he
  rcases he with rfl | rfl | rfl <;> simp

theorem witness_KeyEventsDriveKeysAndEndTheWait :
    ({ State.reset with status := .waitKey 15 } : State).status = .waitKey 15 ∧ ∀ x, State.reset.status ≠ .waitKey x := by
  decide

theorem witness_SentinelHalts :
    (let s : State := { State.reset with pc := 0xFFF, mem := [(0xFFF, 0x0A)] };
      s.status = .running ∧ s.pc.toNat < 4096 ∧ readByte s.mem s.pc.toNat = 0x0A) := by decide

theorem witness_RetPopsOrUnderflows :
    ({ State.reset with stack := [0x20A, 0x1000] } : State).stack = [0x20A] ++ [0x1000] ∧ State.reset.stack = [] := by decide

theorem witness_CallPushesOrOverflows : (deep 15).stack.length < 16 ∧ (deep 16).stack.length = 16 := by decide

theorem witness_RetMatchesItsCall :
    ∃ t u : State, (deep 15).stack.length < 16 ∧ exec (.call 0x300) (deep 15) = .next t ∧ u.stack = t.stack :=
  ⟨_, { State.reset with stack := List.replicate 15 0x202 ++ [0x200] }, by decide, rfl, by decide⟩

/-- The flag instructions' clause for a destination other than VF (ADD, SUB, SUBN, SHR, SHL). -/
theorem witness_flag_destination : (14 : Ix) ≠ vF := by decide

theorem witness_LdFFindsTheGlyphOrFaults :
    ((regs [(0, 15)]).reg 0).toNat ≤ 15 ∧ ((regs [(0, 16)]).reg 0).toNat > 15 := by decide

theorem witness_LdBStoresDecimalDigits :
    Memory.wf State.reset.mem = true ∧ ({ State.reset with i := 0xFFD } : State).i.toNat + 3 ≤ 4096 ∧
    ({ State.reset with i := 0xFFE } : State).i.toNat + 3 > 4096 := by decide

/-- LdMemStoresRegisters and LdRegsLoadsFromMemory, all sixteen registers at the top of memory. -/
theorem witness_LdMemStoresRegisters_LdRegsLoadsFromMemory :
    Memory.wf State.reset.mem = true ∧ ({ State.reset with i := 0xFF0 } : State).i.toNat + (15 : Ix).val + 1 ≤ 4096 ∧
    ({ State.reset with i := 0xFF1 } : State).i.toNat + (15 : Ix).val + 1 > 4096 := by decide

theorem witness_RegisterDumpThenLoadRestores :
    ∃ t, Memory.wf State.reset.mem = true ∧ State.reset.i.toNat + (15 : Ix).val + 1 ≤ 4096 ∧
      exec (.ldMemFromRegs 15) State.reset = .next t ∧ t.mem = t.mem ∧ t.i = t.i :=
  ⟨_, by decide, by decide, rfl, rfl, rfl⟩

/-- A two-byte block that starts one below pc, its second byte a sentinel, and the digits 1, 2, 3 ending at the last address. -/
theorem witness_StoredInstructionIsFetchedNext :
    (let s : State := { regs [(0, 0x60), (1, 0x0A)] with i := 0x1FF };
      Memory.wf s.mem = true ∧ s.i.toNat + (1 : Ix).val + 1 ≤ 4096 ∧ ∃ t, exec (.ldMemFromRegs 1) s = .next t ∧
        ∃ u : State, u.mem = t.mem ∧ u.status = .running ∧ u.pc.toNat < 4096 ∧ readByte u.mem u.pc.toNat = 0x0A) ∧
    (let s : State := { regs [(0, 123)] with i := 0xFFD };
      Memory.wf s.mem = true ∧ s.i.toNat + 3 ≤ 4096 ∧ ∃ t, exec (.ldB 0) s = .next t ∧
        ∃ u : State, u.mem = t.mem ∧ u.status = .running ∧ u.pc.toNat + 1 < 4096 ∧ readByte u.mem u.pc.toNat = 2) :=
  ⟨⟨by decide, by decide, _, rfl, { State.reset with mem := [(0x1FF, 0x60), (0x200, 0x0A)] }, by decide, by decide, by decide,
      by decide⟩,
    ⟨by decide, by decide, _, rfl, { State.reset with pc := 0xFFE, mem := [(0xFFD, 1), (0xFFE, 2), (0xFFF, 3)] }, by decide,
      by decide, by decide, by decide⟩⟩

/-- 20_memory R53 at its edges: a block of length 0 at 4096 is in bounds and moves nothing, at 4097 it is not; two bytes end at
4096. -/
theorem test_access_bounds :
    memRead [] 4096 0 = some [] ∧ memRead [] 4097 0 = none ∧ memRead [] 4094 2 = some [0, 0] ∧ memRead [] 4095 2 = none ∧
    memWrite [] 4096 [] = some [] ∧ memWrite [] 4095 [1, 2] = none ∧ memWrite [] 4095 [1] = some [(4095, 1)] := by decide

theorem witness_DrwXorsTheClippedSprite :
    ({ State.reset with i := 0xFF1 } : State).i.toNat + (15 : Ix).val ≤ 4096 ∧
    ({ State.reset with i := 0x1001 } : State).i.toNat + (0 : Ix).val > 4096 := by decide

theorem witness_SkipsOnKey :
    (regs [(1, 15)]).reg 1 = BitVec.ofNat 8 (15 : Ix).val ∧ ((regs [(1, 16)]).reg 1).toNat > 15 := by decide

/-- The statements over every instruction (RegistersWrittenOnlyAsListed and those after it): an instruction that completes
and is none of the excepted ones, and a register it does not list. -/
theorem witness_rules_over_every_instruction :
    ∃ t, exec (.ldImm 3 9) State.reset = .next t ∧ (4 : Ix) ∉ writtenRegs (.ldImm 3 9) ∧
      (∀ nnn, Instr.ldImm 3 9 ≠ .ldI nnn) ∧ (∀ x, Instr.ldImm 3 9 ≠ .addI x) ∧ (∀ x, Instr.ldImm 3 9 ≠ .ldF x) ∧
      (∀ nnn, Instr.ldImm 3 9 ≠ .call nnn) ∧ Instr.ldImm 3 9 ≠ .ret ∧ (∀ x, Instr.ldImm 3 9 ≠ .ldB x) ∧
      (∀ x, Instr.ldImm 3 9 ≠ .ldMemFromRegs x) ∧ Instr.ldImm 3 9 ≠ .cls ∧ (∀ x y n, Instr.ldImm 3 9 ≠ .drw x y n) ∧
      (∀ x, Instr.ldImm 3 9 ≠ .ldDTVx x) ∧ (∀ x, Instr.ldImm 3 9 ≠ .ldSTVx x) ∧ State.reset.stack.length ≤ 16 :=
  ⟨_, rfl, by decide, by simp, by simp, by simp, by simp, by simp, by simp, by simp, by simp, by simp, by simp, by simp,
    by decide⟩

theorem witness_StackChangedOnlyByCallAndRet :
    (∃ t, exec (.call 0x300) (deep 15) = .next t) ∧ (∃ t, exec .ret (deep 16) = .next t) := ⟨⟨_, rfl⟩, ⟨_, rfl⟩⟩

theorem witness_FaultLeavesAllElseAsItWas :
    ∃ t, State.reset.status = .running ∧ exec (.unknown 0x5121) State.reset = .next t ∧
      t.status = .faulted (.unknownInstruction 0x1FE 0x5121) := ⟨_, by decide, rfl, by decide⟩

theorem witness_StepKeepsInvariant : Inv (deep 16) ∧ ∃ t, step (deep 16) = .next t := by
  refine ⟨⟨by decide, by decide, fun a ha => ?_, by decide⟩, _, rfl⟩
  rw [(List.mem_replicate.1 ha).2]
  decide

theorem witness_RomIsCopiedOrRefused :
    Memory.wf State.reset.mem = true ∧ (List.replicate 3584 (0x12 : Byte)).length ≤ 3584 ∧
    (List.replicate 3585 (0x12 : Byte)).length > 3584 := by
  refine ⟨by decide, ?_, ?_⟩ <;> simp only [List.length_replicate, Nat.le_refl, gt_iff_lt, Nat.lt_succ_self]

theorem witness_LaunchLeavesTheTabledValues : ([0x60, 0x05, 0x0A] : List Byte).length ≤ 3584 := by decide

/-- Each clause: nothing given, as at reset; a group in which key 15 is pressed last and which holds no event of key 0; one in
which key 15 is released last; a wait and a group whose first press, of key 3, comes after other events and before another
press; and a step that answers a next state with the free schedule's group due. -/
theorem witness_ScheduledEventsLandInOrderAndAPressEndsTheWait :
    State.reset.schedule = [] ∧
    (let s : State := { State.reset with dt := 1, schedule := [[.tickDT, .keyUp 15, .tickDT, .keyDown 15, .readout], []] };
      (∃ group later, s.schedule = group :: later) ∧ Event.readout ∈ s.dueEvents ∧
        (∃ before after, s.dueEvents = before ++ .keyDown 15 :: after ∧ Event.keyUp 15 ∉ after) ∧
        Event.keyDown 0 ∉ s.dueEvents ∧ Event.keyUp 0 ∉ s.dueEvents) ∧
    (let s : State := { State.reset with schedule := [[.keyDown 15, .keyUp 15]] };
      ∃ before after, s.dueEvents = before ++ .keyUp 15 :: after ∧ Event.keyDown 15 ∉ after) ∧
    (let s : State := { State.reset with status := .waitKey 15, schedule := [[.tickDT, .keyUp 3, .keyDown 3, .keyDown 4], []] };
      s.status = .waitKey 15 ∧
        ∃ before after, s.dueEvents = before ++ .keyDown 3 :: after ∧ ∀ j, Event.keyDown j ∉ before) ∧
    ∃ t, step State.reset = .next t :=
  ⟨rfl, ⟨⟨_, _, rfl⟩, by decide, ⟨[.tickDT, .keyUp 15, .tickDT], [.readout], rfl, by decide⟩, by decide, by decide⟩,
    ⟨[.keyDown 15], [], rfl, by decide⟩, ⟨rfl, [.tickDT, .keyUp 3], [.keyDown 4], rfl, by decide⟩, _, rfl⟩

/-- A step from the reset state itself, whatever the free schedule lands before it: the word 0x0000 is UNKNOWN (log 26). -/
theorem test_step_reset :
    nextIs (step State.reset) (fun t => t.pc == 0x202 && t.status == .faulted (.unknownInstruction 0x200 0x0000) &&
      t.boundary == 1) = true := by decide

/-- Of two presses in one group the first is written to the waiting register (44_timers_input R207). -/
theorem test_land_first_press :
    (let t := ({ State.reset with status := .waitKey 15, schedule := [[.keyDown 3, .keyDown 4]] } : State).landEvents;
      t.reg 15 = 3 ∧ t.status = .running ∧ t.keyHeld[4] = true) := by decide

end Sys2Proof.Tests
end

section
/-! SUPPORT. What `Execute` can do, said once for every instruction: the named update each one makes, and the faults. -/

namespace Sys2Proof.Machine

/-- The updates `Execute` makes, an instruction and the state it leaves: a constructor for each shape of update. Left open is
what a statement over every instruction does not ask: which instruction of a family faults, jumps (within the bound of
10_state R25) or skips, whether the skip is taken, and the values computed into registers and the grid. -/
inductive Effect (s : State) : Instr → State → Prop
  | fault {i : Instr} (f : Fault) (site : f.site = s.fetchedAt) : Effect s i (s.setStatus (.faulted f))
  | halt : Effect s .eof (s.setStatus .halted)
  | wait (x : Ix) : Effect s (.ldVxK x) (s.setStatus (.waitKey x))
  | cls : Effect s .cls (s.display clearedFb)
  | drw (x y n : Ix) (fb : Framebuffer) (collided : Bool) : Effect s (.drw x y n) ((s.display fb).setFlag collided)
  | ret (below : List Word) (top : Word) (popped : s.stack = below ++ [top]) :
    Effect s .ret { s with pc := top, stack := below }
  | call (nnn : Addr12) (room : s.stack.length < Config.stackDepth) :
    Effect s (.call nnn) ((s.push s.pc).setPc (zextAddr nnn))
  | jump {i : Instr} (target : Word) (bound : target.toNat ≤ 0x10FE) : Effect s i (s.setPc target)
  | skip {i : Instr} (c : Bool) : Effect s i (s.skipIf c)
  | setReg {i : Instr} (x : Ix) (b : Byte) (listed : writtenRegs i = [x]) : Effect s i (s.setReg x b)
  | setRegFlag {i : Instr} (x : Ix) (b : Byte) (c : Bool) (listed : writtenRegs i = [x, vF]) :
    Effect s i (s.setRegFlag x b c)
  | rnd (x : Ix) (nn b : Byte) : Effect s (.rnd x nn) { s.setReg x b with draws := s.draws + 1 }
  | ldI (nnn : Addr12) : Effect s (.ldI nnn) (s.setI (zextAddr nnn))
  | addI (x : Ix) : Effect s (.addI x) ((s.setI (addI16 s.i (s.reg x))).setFlag (addIFlag s.i (s.reg x)))
  | ldF (x : Ix) : Effect s (.ldF x) (s.setI (glyphAddress (s.reg x)))
  | ldDT (x : Ix) : Effect s (.ldDTVx x) { s with dt := s.reg x }
  | ldST (x : Ix) : Effect s (.ldSTVx x) { s with st := s.reg x }
  | ldB (x : Ix) (fits : s.transferAddr + (bcdDigits (s.reg x)).length ≤ Config.memSize) :
    Effect s (.ldB x) { s with mem := writeBytes s.mem s.transferAddr (bcdDigits (s.reg x)) }
  | storeRegs (x : Ix) (fits : s.transferAddr + (s.regsUpTo x).length ≤ Config.memSize) :
    Effect s (.ldMemFromRegs x) { s with mem := writeBytes s.mem s.transferAddr (s.regsUpTo x) }
  | loadRegs (x : Ix) (bytes : List Byte) (count : bytes.length = x.val + 1) :
    Effect s (.ldRegsFromMem x) { s with v := loadRegs s.v 0 bytes }

/-- `Execute` of `i` answers a next state that `Effect` describes. -/
def Executes (i : Instr) (s : State) : Prop := ∃ t, exec i s = .next t ∧ Effect s i t

theorem toNat_zextAddr (nnn : Addr12) : (zextAddr nnn).toNat = nnn.toNat := by
  have := nnn.isLt
  simp only [zextAddr, BitVec.toNat_setWidth]
  omega

theorem toNat_zextByte (b : Byte) : (zextByte b).toNat = b.toNat := by
  have := b.isLt
  simp only [zextByte, BitVec.toNat_setWidth]
  omega

/-- Within the bound of 10_state R25 a pc advances without wrapping. -/
theorem toNat_add_two {w : Word} (bound : w.toNat ≤ 0x10FE) : (w + 2).toNat = w.toNat + 2 := by
  have two : (2 : Word).toNat = 2 := rfl
  rw [BitVec.toNat_add, two]
  omega

/-- The bound of 10_state R25: a 12-bit address and a byte. -/
theorem toNat_jpV0_target_le (b : Byte) (nnn : Addr12) : (zextByte b + zextAddr nnn).toNat ≤ 0x10FE := by
  have := b.isLt
  have := nnn.isLt
  simp only [BitVec.toNat_add, toNat_zextByte, toNat_zextAddr]
  omega

theorem executes_ret (s : State) : Executes .ret s := by
  rcases s.stack.eq_nil_or_concat' with empty | ⟨below, top, popped⟩
  · exact ⟨_, by simp [exec, execRet, empty, raise], .fault (.stackUnderflow s.fetchedAt) rfl⟩
  · exact ⟨_, by simp [exec, execRet, popped], .ret below top popped⟩

theorem executes_call (nnn : Addr12) (s : State) : Executes (.call nnn) s := by
  by_cases full : s.stack.length ≥ Config.stackDepth
  · exact ⟨_, if_pos full, .fault (.stackOverflow s.fetchedAt) rfl⟩
  · exact ⟨_, if_neg full, .call nnn (by omega)⟩

theorem executes_drw (x y n : Ix) (s : State) : Executes (.drw x y n) s := by
  rcases withBytes_cases s s.transferAddr n.val _ with ⟨-, read⟩ | ⟨-, failed⟩
  · exact ⟨_, read, .drw x y n _ _⟩
  · exact ⟨_, failed, .fault _ rfl⟩

theorem executes_ldRegsFromMem (x : Ix) (s : State) : Executes (.ldRegsFromMem x) s := by
  rcases withBytes_cases s s.transferAddr (x.val + 1) _ with ⟨-, read⟩ | ⟨-, failed⟩
  · exact ⟨_, read, .loadRegs x _ (length_bytesAt ..)⟩
  · exact ⟨_, failed, .fault _ rfl⟩

theorem executes_ldB (x : Ix) (s : State) : Executes (.ldB x) s := by
  rcases storeBytes_cases s s.transferAddr (bcdDigits (s.reg x)) with ⟨fits, stored⟩ | ⟨-, failed⟩
  · exact ⟨_, stored, .ldB x fits⟩
  · exact ⟨_, failed, .fault _ rfl⟩

theorem executes_ldMemFromRegs (x : Ix) (s : State) : Executes (.ldMemFromRegs x) s := by
  rcases storeBytes_cases s s.transferAddr (s.regsUpTo x) with ⟨fits, stored⟩ | ⟨-, failed⟩
  · exact ⟨_, stored, .storeRegs x fits⟩
  · exact ⟨_, failed, .fault _ rfl⟩

theorem executes_ldF (x : Ix) (s : State) : Executes (.ldF x) s := by
  cases digit : hexValue (s.reg x) with
  | none => exact ⟨_, by simp [exec, execLdF, digit, raise], .fault (.invalidDigit s.fetchedAt (s.reg x)) rfl⟩
  | some _ => exact ⟨_, by simp [exec, execLdF, digit], .ldF x⟩

/-- SKP and SKNP skip or raise InvalidKey, whichever of the two they are. -/
theorem skipOnKey_effect (i : Instr) (x : Ix) (held : Bool) (s : State) :
    ∃ t, skipOnKey x held s = .next t ∧ Effect s i t := by
  cases key : hexValue (s.reg x) with
  | none => exact ⟨_, by simp [skipOnKey, key, raise], .fault (.invalidKey s.fetchedAt (s.reg x)) rfl⟩
  | some k => exact ⟨_, by simp [skipOnKey, key], .skip (s.keyHeld[k.val] == held)⟩

/-- Every instruction makes one of the updates of `Effect`. -/
theorem executes (i : Instr) (s : State) : Executes i s :=
  match i with
  | .eof => ⟨_, rfl, .halt⟩
  | .cls => ⟨_, rfl, .cls⟩
  | .ret => executes_ret s
  | .jp nnn => ⟨_, rfl, .jump _ (by have := nnn.isLt; rw [toNat_zextAddr]; omega)⟩
  | .call nnn => executes_call nnn s
  | .jpV0 nnn => ⟨_, rfl, .jump _ (toNat_jpV0_target_le (s.reg 0) nnn)⟩
  | .seImm _ _ | .sneImm _ _ | .seReg _ _ | .sneReg _ _ => ⟨_, rfl, .skip _⟩
  | .skp x => skipOnKey_effect _ x true s
  | .sknp x => skipOnKey_effect _ x false s
  | .ldImm x _ | .addImm x _ | .ldReg x _ | .orReg x _ | .andReg x _ | .xorReg x _ | .ldVxDT x =>
    ⟨_, rfl, .setReg x _ rfl⟩
  | .addReg x _ | .sub x _ | .shr x _ | .subn x _ | .shl x _ => ⟨_, rfl, .setRegFlag x _ _ rfl⟩
  | .rnd x nn => ⟨_, rfl, .rnd x nn _⟩
  | .drw x y n => executes_drw x y n s
  | .ldVxK x => ⟨_, rfl, .wait x⟩
  | .ldDTVx x => ⟨_, rfl, .ldDT x⟩
  | .ldSTVx x => ⟨_, rfl, .ldST x⟩
  | .ldI nnn => ⟨_, rfl, .ldI nnn⟩
  | .addI x => ⟨_, rfl, .addI x⟩
  | .ldF x => executes_ldF x s
  | .ldB x => executes_ldB x s
  | .ldMemFromRegs x => executes_ldMemFromRegs x s
  | .ldRegsFromMem x => executes_ldRegsFromMem x s
  | .unknown word => ⟨_, rfl, .fault (.unknownInstruction s.fetchedAt word) rfl⟩

theorem effect_of_exec {i : Instr} {s t : State} (h : exec i s = .next t) : Effect s i t := by
  obtain ⟨u, hu, effect⟩ := executes i s
  cases hu.symm.trans h
  exact effect

end Sys2Proof.Machine
end

section
/-! SUPPORT. What each instruction leaves of the pieces of the state, read off the shape of its update. -/

namespace Sys2Proof.Machine.Effect

variable {s t : State} {i : Instr}

/-- A register the "writes" column of 10_state R22 does not list keeps its value. -/
theorem reg_eq (h : Effect s i t) {r : Ix} (notListed : r ∉ writtenRegs i) : t.reg r = s.reg r := by
  cases h with
  | setReg x b listed =>
    have ne : r ≠ x := by simpa [listed] using notListed
    exact s.reg_setReg_of_ne ne b
  | setRegFlag x b c listed =>
    obtain ⟨neX, neF⟩ : r ≠ x ∧ r ≠ vF := by simpa [listed] using notListed
    exact s.reg_setRegFlag_of_ne neX neF b c
  | rnd x nn b =>
    have ne : r ≠ x := by simpa [writtenRegs] using notListed
    exact s.reg_setReg_of_ne ne b
  | drw x y n fb collided =>
    have ne : r ≠ vF := by simpa [writtenRegs] using notListed
    exact (s.display fb).reg_setFlag_of_ne ne collided
  | addI x =>
    have ne : r ≠ vF := by simpa [writtenRegs] using notListed
    exact State.reg_setFlag_of_ne _ ne _
  | loadRegs x bytes count =>
    have above : x.val < r.val := by simpa [writtenRegs] using notListed
    have outside : ¬ (0 ≤ r.val ∧ r.val < 0 + bytes.length) := by omega
    simp only [State.reg, getElem_loadRegs, if_neg outside]
  | _ => exact State.reg_congr (by simp) r

/-- I changes only in LD I, ADD I and LD F. -/
theorem i_eq (h : Effect s i t) (notLdI : ∀ nnn, i ≠ .ldI nnn) (notAddI : ∀ x, i ≠ .addI x)
    (notLdF : ∀ x, i ≠ .ldF x) : t.i = s.i := by
  cases h with
  | ldI nnn => exact absurd rfl (notLdI nnn)
  | addI x => exact absurd rfl (notAddI x)
  | ldF x => exact absurd rfl (notLdF x)
  | _ => simp

/-- The stack is left alone, or a CALL pushed the advanced pc, or a RET popped the new pc. -/
theorem stack_cases (h : Effect s i t) :
    t.stack = s.stack ∨
    (∃ nnn, i = .call nnn ∧ s.stack.length < Config.stackDepth ∧ t.stack = s.stack ++ [s.pc]) ∨
    (i = .ret ∧ s.stack = t.stack ++ [t.pc]) := by
  cases h with
  | call nnn room => exact .inr (.inl ⟨nnn, rfl, room, rfl⟩)
  | ret below top popped => exact .inr (.inr ⟨rfl, popped⟩)
  | _ => left; simp

/-- A stack of at most 16 entries stays one. -/
theorem depth_le (h : Effect s i t) (depth : s.stack.length ≤ Config.stackDepth) :
    t.stack.length ≤ Config.stackDepth := by
  rcases h.stack_cases with same | ⟨_, -, room, pushed⟩ | ⟨-, popped⟩
  · rwa [same]
  · rw [pushed, List.length_append]
    exact room
  · rw [popped, List.length_append] at depth
    omega

/-- The framebuffer and the dirty flag change only in CLS and DRW. -/
theorem fb_eq (h : Effect s i t) (notCls : i ≠ .cls) (notDrw : ∀ x y n, i ≠ .drw x y n) :
    t.fb = s.fb ∧ t.fbDirty = s.fbDirty := by
  cases h with
  | cls => exact absurd rfl notCls
  | drw x y n => exact absurd rfl (notDrw x y n)
  | _ => simp

theorem dt_eq (h : Effect s i t) (notLdDT : ∀ x, i ≠ .ldDTVx x) : t.dt = s.dt := by
  cases h with
  | ldDT x => exact absurd rfl (notLdDT x)
  | _ => simp

theorem st_eq (h : Effect s i t) (notLdST : ∀ x, i ≠ .ldSTVx x) : t.st = s.st := by
  cases h with
  | ldST x => exact absurd rfl (notLdST x)
  | _ => simp

/-- No instruction touches what belongs to the environment alone. -/
theorem environment_eq (h : Effect s i t) :
    t.keyHeld = s.keyHeld ∧ t.schedule = s.schedule ∧ t.boundary = s.boundary := by
  cases h with
  | _ => simp

/-- Memory stays in its canonical form: a store that is made lies inside the address space. -/
theorem wf_mem (h : Effect s i t) (wf : Memory.wf s.mem = true) : Memory.wf t.mem = true := by
  cases h with
  | ldB x fits => exact wf_writeBytes wf fits
  | storeRegs x fits => exact wf_writeBytes wf fits
  | _ => simpa using wf

/-- The new return addresses are old ones and the advanced pc. -/
theorem returns_le (h : Effect s i t) (returns : ∀ a ∈ s.stack, a.toNat ≤ Config.memSize)
    (pc : s.pc.toNat ≤ Config.memSize) : ∀ a ∈ t.stack, a.toNat ≤ Config.memSize := by
  rcases h.stack_cases with same | ⟨_, -, -, pushed⟩ | ⟨-, popped⟩
  · rwa [same]
  · intro a ha
    rw [pushed, List.mem_append, List.mem_singleton] at ha
    rcases ha with old | rfl
    · exact returns a old
    · exact pc
  · intro a ha
    exact returns a (by rw [popped]; exact List.mem_append_left _ ha)

/-- The bound of 10_state R25: an instruction fetched in bounds falls through, skips, returns to or jumps within it. -/
theorem pc_le (h : Effect s i t) (returns : ∀ a ∈ s.stack, a.toNat ≤ Config.memSize)
    (pc : s.pc.toNat ≤ Config.memSize) : t.pc.toNat ≤ 0x10FE := by
  have inBounds : s.pc.toNat ≤ 4096 := pc
  cases h with
  | jump target bound => exact bound
  | call nnn room =>
    have := nnn.isLt
    rw [State.setPc_pc, toNat_zextAddr]
    omega
  | ret below top popped =>
    have : top.toNat ≤ Config.memSize := returns top (by simp [popped])
    exact this.trans (by decide)
  | skip c =>
    rw [State.skipIf_pc]
    split
    · rw [toNat_add_two (by omega)]
      omega
    · omega
  | _ => exact inBounds.trans (by decide)

/-- An instruction whose advanced pc lies in bounds keeps the invariant. -/
theorem keeps_inv (h : Effect s i t) (inv : Inv s) (pc : s.pc.toNat ≤ Config.memSize) : Inv t where
  memory := h.wf_mem inv.memory
  depth := h.depth_le inv.depth
  returns := h.returns_le inv.returns pc
  pc := h.pc_le inv.returns pc

end Sys2Proof.Machine.Effect
end

section
/-! SUPPORT. The CPU's transition by what the fetch finds, and that every step keeps the invariant. -/

namespace Sys2Proof.Machine

variable {s t : State}

theorem cpuStep_of_fetch_ok {i : Instr} (run : s.status = .running) (h : fetch s = .ok i) :
    cpuStep s = exec i s.advancePc := by simp [cpuStep, run, h]

theorem cpuStep_of_fetch_error {f : Fault} (run : s.status = .running) (h : fetch s = .error f) :
    cpuStep s = .next (s.setStatus (.faulted f)) := by simp [cpuStep, run, h, raise]

theorem cpuStep_of_not_running (stopped : s.status ≠ .running) : cpuStep s = .next s := by
  unfold cpuStep
  split
  · contradiction
  · rfl

/-- The invariant reads memory, the stack and the pc alone, so a change of status keeps it. -/
theorem Inv.setStatus (inv : Inv s) (x : Status) : Inv (s.setStatus x) :=
  ⟨inv.memory, inv.depth, inv.returns, inv.pc⟩

/-- No event touches memory, the stack or the pc. -/
theorem Inv.landEvents (inv : Inv s) : Inv s.landEvents :=
  ⟨inv.memory, inv.depth, inv.returns, inv.pc⟩

theorem Inv.advancePc (inv : Inv s) (inside : s.pc.toNat < Config.memSize) : Inv s.advancePc where
  memory := inv.memory
  depth := inv.depth
  returns := inv.returns
  pc := by
    have inBounds : s.pc.toNat < 4096 := inside
    rw [State.advancePc_pc, toNat_add_two inv.pc]
    omega

/-- The sentinel at the last address leaves pc at 4097 and runs nothing; any other instruction has both bytes in bounds. -/
theorem Inv.of_cpuStep (inv : Inv s) (h : cpuStep s = .next t) : Inv t := by
  by_cases run : s.status = .running
  case neg =>
    cases (cpuStep_of_not_running run).symm.trans h
    exact inv
  rcases fetch_cases s with ⟨i, found, place⟩ | ⟨-, failed⟩ | ⟨-, failed⟩
  · rw [cpuStep_of_fetch_ok run found] at h
    rcases place with ⟨rfl, inside⟩ | inside
    · cases h
      exact (inv.advancePc inside).setStatus .halted
    · refine (effect_of_exec h).keeps_inv (inv.advancePc (by omega)) ?_
      rw [State.advancePc_pc, toNat_add_two inv.pc]
      exact inside
  all_goals
    cases (cpuStep_of_fetch_error run failed).symm.trans h
    exact inv.setStatus _

/-- Settles O55: the events keep the invariant, and so does the CPU's transition. -/
theorem stepKeepsInvariant : Obligations.StepKeepsInvariant :=
  fun _ _ inv h => inv.landEvents.of_cpuStep h

end Sys2Proof.Machine
end

section
/-! SUPPORT. The statements about the state after reset and about every instruction. -/

namespace Sys2Proof.Machine

/-- Settles O56: nothing is listed in memory, the stack is empty and pc is 0x200. -/
theorem resetMeetsInvariant : Obligations.ResetMeetsInvariant where
  memory := rfl
  depth := Nat.zero_le _
  returns := by simp [State.reset]
  pc := by decide

/-- Settles O47, by the shape of each instruction's update. -/
theorem registersWrittenOnlyAsListed : Obligations.RegistersWrittenOnlyAsListed :=
  fun _ _ _ _ h notListed => (effect_of_exec h).reg_eq notListed

/-- Settles O48, by the shape of each instruction's update. -/
theorem indexWrittenOnlyByItsInstructions : Obligations.IndexWrittenOnlyByItsInstructions :=
  fun _ _ _ h => (effect_of_exec h).i_eq

/-- Settles O49: the three ways an instruction can leave the stack. -/
theorem stackChangedOnlyByCallAndRet : Obligations.StackChangedOnlyByCallAndRet := by
  intro i s t h
  have effect := effect_of_exec h
  refine ⟨effect.depth_le, ?_⟩
  rcases effect.stack_cases with same | ⟨nnn, rfl, -, pushed⟩ | ⟨rfl, popped⟩
  · exact ⟨fun _ _ => same, fun _ _ => .inl same, fun _ => .inl same⟩
  · exact ⟨fun notCall => absurd rfl (notCall nnn), fun _ _ => .inr pushed, nofun⟩
  · exact ⟨fun _ notRet => absurd rfl notRet, nofun, fun _ => .inr popped⟩

/-- Settles O51, by the shape of each instruction's update. -/
theorem framebufferMutatedOnlyByClsAndDrw : Obligations.FramebufferMutatedOnlyByClsAndDrw :=
  fun _ _ _ h => (effect_of_exec h).fb_eq

/-- Settles O52, by the shape of each instruction's update. -/
theorem timersAndKeysWrittenOnlyByTheirOwners : Obligations.TimersAndKeysWrittenOnlyByTheirOwners :=
  fun _ _ _ h => ⟨(effect_of_exec h).dt_eq, (effect_of_exec h).st_eq, (effect_of_exec h).environment_eq⟩

end Sys2Proof.Machine
end

section
/-! SUPPORT. The state a launch leaves, and its memory region by region: the font, the ROM, `RESET_MEM` elsewhere. -/

namespace Sys2Proof.Machine

/-- Memory once the ROM is copied over the constructed image (70_reset_and_hazards R260, R261). -/
def launchMemory (p : LaunchParams) (rom : List Byte) : Memory :=
  writeBytes (memoryOf (constructedByte p)) Config.progBase rom

theorem loadProgram_of_fits (m : Memory) {rom : List Byte} (fits : rom.length ≤ Config.progMaxLen) :
    loadProgram m rom = .ok (writeBytes m Config.progBase rom) := by
  have inside : Config.progBase + rom.length ≤ Config.memSize := Nat.add_le_add_left fits Config.progBase
  rw [loadProgram, memWrite_eq_some.2 ⟨inside, rfl⟩]

/-- The state `launch` leaves. -/
def launchState (p : LaunchParams) (rom : List Byte) : State where
  v := p.v
  i := p.i
  pc := BitVec.ofNat 16 Config.progBase
  stack := []
  dt := p.dt
  st := p.st
  status := .running
  mem := launchMemory p rom
  fb := p.fb
  fbDirty := p.dirty
  keyHeld := p.keys
  draws := 0
  schedule := p.schedule
  boundary := p.boundary

theorem launch_of_fits (p : LaunchParams) {rom : List Byte} (fits : rom.length ≤ Config.progMaxLen) :
    launch p rom = .ok (launchState p rom) := by
  rw [launch, loadProgram_of_fits _ fits]
  rfl

theorem wf_launchMemory (p : LaunchParams) {rom : List Byte} (fits : rom.length ≤ Config.progMaxLen) :
    Memory.wf (launchMemory p rom) = true :=
  wf_writeBytes (wf_memoryOf _) (Nat.add_le_add_left fits Config.progBase)

theorem readByte_launchMemory (p : LaunchParams) (rom : List Byte) (a : Nat) :
    readByte (launchMemory p rom) a =
      if Config.progBase ≤ a ∧ a < Config.progBase + rom.length then rom.getD (a - Config.progBase) 0
      else readByte (memoryOf (constructedByte p)) a :=
  readByte_writeBytes ((Memory.wf_iff _).1 (wf_memoryOf _)).1 _ _ _

theorem readByte_launchMemory_rom (p : LaunchParams) {rom : List Byte} {k : Nat} (h : k < rom.length) :
    readByte (launchMemory p rom) (Config.progBase + k) = rom[k] := by
  rw [readByte_launchMemory, if_pos (by omega), Nat.add_sub_cancel_left, List.getD_eq_getElem _ _ h]

theorem readByte_launchMemory_outside_rom (p : LaunchParams) {rom : List Byte} {a : Nat} (inside : a < Config.memSize)
    (outside : a < Config.progBase ∨ Config.progBase + rom.length ≤ a) :
    readByte (launchMemory p rom) a = constructedByte p a := by
  rw [readByte_launchMemory, if_neg (by omega), readByte_memoryOf _ inside]

theorem constructedByte_font (p : LaunchParams) (d : Fin Config.fontLen) :
    constructedByte p (Config.fontBase + d.val) = p.font[d.val] := by
  simp [constructedByte]

theorem constructedByte_outside_font (p : LaunchParams) {a : Nat}
    (h : a < Config.fontBase ∨ Config.fontBase + Config.fontLen ≤ a) : constructedByte p a = p.mem a :=
  dif_neg (by omega)

theorem inv_launchState (p : LaunchParams) {rom : List Byte} (fits : rom.length ≤ Config.progMaxLen) :
    Inv (launchState p rom) where
  memory := wf_launchMemory p fits
  depth := Nat.zero_le _
  returns := by simp [launchState]
  pc := (by decide : (BitVec.ofNat 16 Config.progBase).toNat ≤ 0x10FE)

/-- Settles O58: the fields are the launch's parameters, and memory is read region by region. -/
theorem launchLeavesTheTabledValues : Obligations.LaunchLeavesTheTabledValues := by
  intro p rom fits
  refine ⟨launchState p rom, launch_of_fits p fits, inv_launchState p fits, rfl, rfl, rfl, rfl, rfl, rfl, rfl, rfl, rfl, rfl,
    rfl, rfl, rfl, fun d => ?font, fun k h => readByte_launchMemory_rom p h, fun a inside notFont notRom => ?elsewhere⟩
  case font =>
    have below : 0x050 + d.val < 0x200 := by omega
    exact (readByte_launchMemory_outside_rom p (below.trans (by decide)) (.inl below)).trans (constructedByte_font p d)
  case elsewhere =>
    exact (readByte_launchMemory_outside_rom p inside notRom).trans (constructedByte_outside_font p notFont)

end Sys2Proof.Machine
end

section
/-! SUPPORT. The bound of an access: a read or a write is made exactly where its block ends by address 4096. -/

namespace Sys2Proof.Machine

theorem memRead_eq_none {m : Memory} {a n : Nat} : memRead m a n = none ↔ a + n > Config.memSize := by
  simp [memRead]

theorem memWrite_eq_none {m : Memory} {a : Nat} {bytes : List Byte} :
    memWrite m a bytes = none ↔ a + bytes.length > Config.memSize := by
  simp [memWrite]

theorem withBytes_of_fits {s : State} {addr n : Nat} (fits : addr + n ≤ Config.memSize)
    (use : List Byte → Host.Outcome State Fault Refusal) : withBytes s addr n use = use (bytesAt s.mem addr n) := by
  rcases withBytes_cases s addr n use with ⟨-, read⟩ | ⟨tooLong, -⟩
  · exact read
  · omega

theorem withBytes_of_too_long {s : State} {addr n : Nat} (tooLong : addr + n > Config.memSize)
    (use : List Byte → Host.Outcome State Fault Refusal) :
    withBytes s addr n use = raise (.outOfBounds s.fetchedAt addr n) s := by
  rcases withBytes_cases s addr n use with ⟨fits, -⟩ | ⟨-, failed⟩
  · omega
  · exact failed

theorem storeBytes_of_fits {s : State} {addr : Nat} {bytes : List Byte} (fits : addr + bytes.length ≤ Config.memSize) :
    storeBytes s addr bytes = .next { s with mem := writeBytes s.mem addr bytes } := by
  rcases storeBytes_cases s addr bytes with ⟨-, stored⟩ | ⟨tooLong, -⟩
  · exact stored
  · omega

theorem storeBytes_of_too_long {s : State} {addr : Nat} {bytes : List Byte}
    (tooLong : addr + bytes.length > Config.memSize) :
    storeBytes s addr bytes = raise (.outOfBounds s.fetchedAt addr bytes.length) s := by
  rcases storeBytes_cases s addr bytes with ⟨fits, -⟩ | ⟨-, failed⟩
  · omega
  · exact failed

/-- Settles O41: the bound of each access, and what an instruction makes of it. -/
theorem accessFailsExactlyOutOfBounds : Obligations.AccessFailsExactlyOutOfBounds := by
  refine ⟨fun m addr => ⟨fun n => memRead_eq_none, fun bytes => memWrite_eq_none⟩, fun s addr n use => ?read,
    fun s addr bytes => ?write⟩
  case read =>
    split
    case isTrue tooLong => exact withBytes_of_too_long tooLong use
    case isFalse fits => exact withBytes_of_fits (Nat.le_of_not_gt fits) use
  case write =>
    split
    case isTrue tooLong => exact storeBytes_of_too_long tooLong
    case isFalse fits => exact storeBytes_of_fits (Nat.le_of_not_gt fits)

end Sys2Proof.Machine
end

section
/-! SUPPORT. What the two stores leave in memory, and that the fetch sees it. -/

namespace Sys2Proof.Machine

/-- Memory changes only in LD B and LD [I]. -/
theorem Effect.mem_eq {s t : State} {i : Instr} (h : Effect s i t) (notLdB : ∀ x, i ≠ .ldB x)
    (notStoreRegs : ∀ x, i ≠ .ldMemFromRegs x) : t.mem = s.mem := by
  cases h with
  | ldB x => exact absurd rfl (notLdB x)
  | storeRegs x => exact absurd rfl (notStoreRegs x)
  | _ => simp

/-- Settles O50, by the shape of each instruction's update. -/
theorem memoryWrittenOnlyByStores : Obligations.MemoryWrittenOnlyByStores :=
  fun _ _ _ h => (effect_of_exec h).mem_eq

@[simp] theorem length_bcdDigits (b : Byte) : (bcdDigits b).length = 3 := by simp [bcdDigits]

@[simp] theorem length_regsUpTo (s : State) (x : Ix) : (s.regsUpTo x).length = x.val + 1 := by
  have := x.isLt
  simp only [State.regsUpTo, List.length_take, Vector.length_toList]
  omega

theorem getD_regsUpTo (s : State) {x : Ix} {k : Nat} (h : k ≤ x.val) :
    (s.regsUpTo x).getD k 0 = s.reg (Fin.ofNat 16 k) := by
  have inRange : k < (s.regsUpTo x).length := by
    rw [length_regsUpTo]
    omega
  have index : k % 16 = k := Nat.mod_eq_of_lt (by omega)
  rw [List.getD_eq_getElem _ _ inRange]
  simp [State.regsUpTo, State.reg, index]

/-- LD [I] in bounds leaves register `k` at `I + k`, and every other byte as it was. -/
theorem readByte_of_ldMemFromRegs {s t : State} {x : Ix} (wf : Memory.wf s.mem = true)
    (fits : s.i.toNat + x.val + 1 ≤ 4096) (h : exec (.ldMemFromRegs x) s = .next t) (a : Nat) :
    readByte t.mem a =
      if s.i.toNat ≤ a ∧ a ≤ s.i.toNat + x.val then s.reg (Fin.ofNat 16 (a - s.i.toNat)) else readByte s.mem a := by
  have inside : s.transferAddr + (s.regsUpTo x).length ≤ Config.memSize := by
    rw [length_regsUpTo]
    exact fits
  cases (storeBytes_of_fits inside).symm.trans h
  have sorted := ((Memory.wf_iff _).1 wf).1
  simp only [readByte_writeBytes sorted, length_regsUpTo, State.transferAddr]
  by_cases stored : s.i.toNat ≤ a ∧ a ≤ s.i.toNat + x.val
  · rw [if_pos stored, if_pos (by omega), getD_regsUpTo s (by omega)]
  · rw [if_neg stored, if_neg (by omega)]

/-- LD B in bounds leaves the three digits from `I` on, and every other byte as it was. -/
theorem readByte_of_ldB {s t : State} {x : Ix} (wf : Memory.wf s.mem = true) (fits : s.i.toNat + 3 ≤ 4096)
    (h : exec (.ldB x) s = .next t) (a : Nat) :
    readByte t.mem a =
      if a = s.i.toNat then BitVec.ofNat 8 ((s.reg x).toNat / 100)
      else if a = s.i.toNat + 1 then BitVec.ofNat 8 ((s.reg x).toNat / 10 % 10)
      else if a = s.i.toNat + 2 then BitVec.ofNat 8 ((s.reg x).toNat % 10)
      else readByte s.mem a := by
  have inside : s.transferAddr + (bcdDigits (s.reg x)).length ≤ Config.memSize := fits
  cases (storeBytes_of_fits inside).symm.trans h
  have sorted := ((Memory.wf_iff _).1 wf).1
  simp only [readByte_writeBytes sorted, length_bcdDigits, State.transferAddr]
  by_cases stored : s.i.toNat ≤ a ∧ a < s.i.toNat + 3
  · obtain rfl | rfl | rfl : a = s.i.toNat ∨ a = s.i.toNat + 1 ∨ a = s.i.toNat + 2 := by omega
    all_goals simp [bcdDigits]
  · rw [if_neg stored, if_neg (by omega), if_neg (by omega), if_neg (by omega)]

/-- A sentinel byte in bounds is fetched as EOF, whatever follows it. -/
theorem fetch_of_sentinel {s : State} (inside : s.pc.toNat < Config.memSize)
    (sentinel : readByte s.mem s.pc.toNat = eofByte) : fetch s = .ok .eof := by
  by_cases last : s.pc.toNat + 1 = Config.memSize
  · simp [fetch, fetchWindow_one last, decodeBytes, sentinel]
  · simp [fetch, fetchWindow_two (by omega : s.pc.toNat + 1 < Config.memSize), decodeBytes, sentinel]

/-- Any other two bytes in bounds are fetched as the instruction of their big-endian word. -/
theorem fetch_of_word {s : State} (inside : s.pc.toNat + 1 < Config.memSize)
    (other : readByte s.mem s.pc.toNat ≠ eofByte) :
    fetch s = .ok (decodeWord (wordOfBytes (readByte s.mem s.pc.toNat) (readByte s.mem (s.pc.toNat + 1)))) := by
  simp [fetch, fetchWindow_two inside, decodeBytes, other]

/-- A Running CPU runs the bytes its memory reads as. -/
theorem runsBytes_readByte {s : State} (run : s.status = .running) : RunsBytes s (readByte s.mem) :=
  ⟨fun inside sentinel => cpuStep_of_fetch_ok run (fetch_of_sentinel inside sentinel),
    fun inside other => cpuStep_of_fetch_ok run (fetch_of_word inside other)⟩

/-- Settles O40: the CPU runs the bytes memory reads as, which after a store are the stored and the old ones. -/
theorem storedInstructionIsFetchedNext : Obligations.StoredInstructionIsFetchedNext := by
  intro x s t u wf sameMem run
  have runs : RunsBytes u (readByte t.mem) := sameMem ▸ runsBytes_readByte run
  constructor
  · intro fits h
    exact funext (readByte_of_ldMemFromRegs wf fits h) ▸ runs
  · intro fits h
    exact funext (readByte_of_ldB wf fits h) ▸ runs

end Sys2Proof.Machine
end

section
/-! SUPPORT. What a group of events leaves in the timers, the keys, the dirty flag and a wait. -/

namespace Sys2Proof.Machine

theorem toNat_tick (t : Byte) : (tick t).toNat = t.toNat - 1 := by
  unfold tick
  split
  · next positive => exact BitVec.toNat_sub_of_le (x := t) (y := 1) positive
  · omega

/-- A timer that moves only on its own tick is down by its own ticks, never below 0 (44_timers_input R210). -/
theorem foldl_deliver_timer {timer : State → Byte} {own : Event}
    (moves : ∀ s e, timer (Event.deliver s e) = if e = own then tick (timer s) else timer s) (group : List Event)
    (s : State) : (timer (group.foldl Event.deliver s)).toNat = (timer s).toNat - group.count own := by
  induction group generalizing s with
  | nil => rfl
  | cons e group ih =>
    rw [List.foldl_cons, ih, moves, List.count_cons]
    by_cases ticks : e = own
    · simp only [ticks, if_true, toNat_tick, beq_self_eq_true]
      omega
    · simp [ticks]

theorem foldl_deliver_dt (group : List Event) (s : State) :
    (group.foldl Event.deliver s).dt.toNat = s.dt.toNat - group.count .tickDT :=
  foldl_deliver_timer deliver_dt group s

theorem foldl_deliver_st (group : List Event) (s : State) :
    (group.foldl Event.deliver s).st.toNat = s.st.toNat - group.count .tickST :=
  foldl_deliver_timer deliver_st group s

/-- A readout anywhere in the group leaves the dirty flag clear. -/
theorem foldl_deliver_fbDirty (group : List Event) (s : State) :
    (group.foldl Event.deliver s).fbDirty = if .readout ∈ group then false else s.fbDirty := by
  induction group generalizing s with
  | nil => rfl
  | cons e group ih =>
    rw [List.foldl_cons, ih, deliver_fbDirty]
    by_cases own : e = .readout
    · simp [own]
    · simp [own, Ne.symm own]

/-- A key that stands at `b` still does after a group whose events of that key set it to `b`. -/
theorem foldl_deliver_keyHeld {group : List Event} {s : State} {k : Ix} {b : Bool} (held : s.keyHeld[k.val] = b)
    (down : .keyDown k ∈ group → b = true) (up : .keyUp k ∈ group → b = false) :
    (group.foldl Event.deliver s).keyHeld[k.val] = b := by
  refine List.foldlRecOn group Event.deliver (motive := fun t => t.keyHeld[k.val] = b) held fun t still e he => ?_
  rw [deliver_keyHeld]
  split
  case isTrue press => exact (down (press ▸ he)).symm
  case isFalse =>
    split
    case isTrue release => exact (up (release ▸ he)).symm
    case isFalse => exact still

/-- A key is left held by its press if no release of it follows. -/
theorem foldl_deliver_keyHeld_of_press (s : State) (k : Ix) (before : List Event) {after : List Event}
    (notUp : .keyUp k ∉ after) :
    ((before ++ .keyDown k :: after).foldl Event.deliver s).keyHeld[k.val] = true := by
  rw [List.foldl_append, List.foldl_cons]
  exact foldl_deliver_keyHeld (by simp [deliver_keyHeld]) (fun _ => rfl) (absurd · notUp)

/-- A key is left released by its release if no press of it follows. -/
theorem foldl_deliver_keyHeld_of_release (s : State) (k : Ix) (before : List Event) {after : List Event}
    (notDown : .keyDown k ∉ after) :
    ((before ++ .keyUp k :: after).foldl Event.deliver s).keyHeld[k.val] = false := by
  rw [List.foldl_append, List.foldl_cons]
  exact foldl_deliver_keyHeld (by simp [deliver_keyHeld]) (absurd · notDown) (fun _ => rfl)

/-- Only a press touches the status or a general register. -/
theorem deliver_of_no_press (s : State) {e : Event} (noPress : ∀ j, e ≠ .keyDown j) :
    (Event.deliver s e).status = s.status ∧ (Event.deliver s e).v = s.v := by
  cases e with
  | keyDown j => exact absurd rfl (noPress j)
  | _ => simp [Event.deliver, State.readout]

theorem foldl_deliver_of_no_press {group : List Event} (s : State) (noPress : ∀ j, .keyDown j ∉ group) :
    (group.foldl Event.deliver s).status = s.status ∧ (group.foldl Event.deliver s).v = s.v := by
  refine List.foldlRecOn group Event.deliver (motive := fun t => t.status = s.status ∧ t.v = s.v) ⟨rfl, rfl⟩
    fun t ⟨sameStatus, sameV⟩ e he => ?_
  obtain ⟨status, v⟩ := deliver_of_no_press t (e := e) fun j press => noPress j (press ▸ he)
  exact ⟨status.trans sameStatus, v.trans sameV⟩

/-- A press in a wait writes the waiting register and sets the CPU Running (44_timers_input R207). -/
theorem deliver_press_of_waiting {s : State} {x : Ix} (waiting : s.status = .waitKey x) (k : Ix) :
    (Event.deliver s (.keyDown k)).status = .running ∧
    (Event.deliver s (.keyDown k)).v = (s.setReg x (BitVec.ofNat 8 k.val)).v := by
  simp [Event.deliver, State.wakeOn, waiting]

/-- The first press of a group that lands in a wait is the one written; what lands after it finds no wait. -/
theorem foldl_deliver_first_press {s : State} {x : Ix} (waiting : s.status = .waitKey x) (k : Ix) {before : List Event}
    (noPress : ∀ j, .keyDown j ∉ before) (after : List Event) :
    ((before ++ .keyDown k :: after).foldl Event.deliver s).status = .running ∧
    ((before ++ .keyDown k :: after).foldl Event.deliver s).v = (s.setReg x (BitVec.ofNat 8 k.val)).v := by
  rw [List.foldl_append, List.foldl_cons]
  obtain ⟨stillWaiting, sameV⟩ := foldl_deliver_of_no_press s noPress
  obtain ⟨woken, written⟩ := deliver_press_of_waiting (stillWaiting.trans waiting) k
  obtain ⟨status, v⟩ := foldl_deliver_not_waiting after (fun y => by rw [woken]; nofun)
  refine ⟨status.trans woken, (v.trans written).trans ?_⟩
  rw [State.setReg_v, State.setReg_v, sameV]

/-- The CPU's transition leaves the schedule and the boundary's number alone. -/
theorem cpuStep_schedule_boundary {s t : State} (h : cpuStep s = .next t) :
    t.schedule = s.schedule ∧ t.boundary = s.boundary := by
  by_cases run : s.status = .running
  case neg =>
    cases (cpuStep_of_not_running run).symm.trans h
    exact ⟨rfl, rfl⟩
  cases found : fetch s with
  | error f =>
    cases (cpuStep_of_fetch_error run found).symm.trans h
    exact ⟨rfl, rfl⟩
  | ok i => exact (effect_of_exec ((cpuStep_of_fetch_ok run found).symm.trans h)).environment_eq.2

/-- Where a wait meets a press, the boundary writes the first one to the waiting register and sets the CPU Running, and
nothing else changes but what the timers and the host own (44_timers_input R207). -/
theorem landEvents_first_press {s : State} {x k : Ix} {before after : List Event} (waiting : s.status = .waitKey x)
    (due : s.dueEvents = before ++ .keyDown k :: after) (noPress : ∀ j, .keyDown j ∉ before) :
    s.landEvents.status = .running ∧ s.landEvents.reg x = BitVec.ofNat 8 k.val ∧
    UnchangedBut (fun c => c = .reg x ∨ c = .status ∨ EnvironmentOwned c) s s.landEvents := by
  have landed := landEvents_eq_foldl s
  rw [due] at landed
  obtain ⟨running, v⟩ := foldl_deliver_first_press (s := s.passBoundary) waiting k noPress after
  rw [← landed] at running v
  have reg : ∀ y, s.landEvents.reg y = (s.setReg x (BitVec.ofNat 8 k.val)).reg y := State.reg_congr v
  refine ⟨running, (reg x).trans (s.reg_setReg_self x _), fun c kept => ?_⟩
  cases c with
  | reg y =>
    have other : y ≠ x := fun same => kept (.inl (congrArg Component.reg same))
    exact (reg y).trans (s.reg_setReg_of_ne other _)
  | status => exact absurd (.inr (.inl rfl)) kept
  | dt | st | fbDirty | key | schedule | boundary => exact absurd (.inr (.inr trivial)) kept
  | i | pc | stack | byte | pixel | draws => exact rfl

/-- Settles O60: the boundary is a fold of deliveries, read component by component. -/
theorem scheduledEventsLandInOrderAndAPressEndsTheWait :
    Obligations.ScheduledEventsLandInOrderAndAPressEndsTheWait := by
  intro s
  have landed := landEvents_eq_foldl s
  refine ⟨rfl, fun group later => dueEvents_of_cons, dueEvents_of_nil, landed, fun t h => cpuStep_schedule_boundary h,
    ?dt, ?st, ?dirty, fun k before after =>
      ⟨fun due notUp => ?press, fun due notDown => ?release, fun notDown notUp => ?quiet,
        fun x waiting due noPress => landEvents_first_press waiting due noPress⟩⟩
  case dt => exact landed ▸ foldl_deliver_dt _ _
  case st => exact landed ▸ foldl_deliver_st _ _
  case dirty => exact landed ▸ foldl_deliver_fbDirty _ _
  case press =>
    rw [landed, due]
    exact foldl_deliver_keyHeld_of_press _ k before notUp
  case release =>
    rw [landed, due]
    exact foldl_deliver_keyHeld_of_release _ k before notDown
  case quiet =>
    rw [landed]
    exact foldl_deliver_keyHeld rfl (absurd · notDown) (absurd · notUp)

end Sys2Proof.Machine
end

section
/-! SUPPORT. The decoder family by family: the fields of the words the encoder lays out, which words it reads as UNKNOWN
(30_encoding R86), and that decoder and encoder undo each other. -/

namespace Sys2Proof

theorem val_topNibble (w : Word) : (nibble w 12).val = w.toNat / 4096 := by
  have := w.isLt
  rw [val_nibble]
  omega

/-! The fields of the three word formats of 30_encoding R82. -/

@[simp] theorem topNibble_wordAddr (op : BitVec 4) (nnn : Addr12) : (nibble (wordAddr op nnn) 12).val = op.toNat := by
  rw [val_topNibble, toNat_wordAddr]
  omega

@[simp] theorem fieldNNN_wordAddr (op : BitVec 4) (nnn : Addr12) : fieldNNN (wordAddr op nnn) = nnn := by
  apply BitVec.eq_of_toNat_eq
  rw [toNat_fieldNNN, toNat_wordAddr]
  omega

@[simp] theorem topNibble_wordRegImm (op : BitVec 4) (x : Ix) (nn : Byte) :
    (nibble (wordRegImm op x nn) 12).val = op.toNat := by
  rw [val_topNibble, toNat_wordRegImm]
  omega

@[simp] theorem fieldX_wordRegImm (op : BitVec 4) (x : Ix) (nn : Byte) : fieldX (wordRegImm op x nn) = x := by
  apply Fin.ext
  rw [val_fieldX, toNat_wordRegImm]
  omega

@[simp] theorem fieldNN_wordRegImm (op : BitVec 4) (x : Ix) (nn : Byte) : fieldNN (wordRegImm op x nn) = nn := by
  apply BitVec.eq_of_toNat_eq
  rw [toNat_fieldNN, toNat_wordRegImm]
  omega

@[simp] theorem topNibble_wordRegReg (op : BitVec 4) (x y sub : Ix) :
    (nibble (wordRegReg op x y sub) 12).val = op.toNat := by
  rw [val_topNibble, toNat_wordRegReg]
  omega

@[simp] theorem fieldX_wordRegReg (op : BitVec 4) (x y sub : Ix) : fieldX (wordRegReg op x y sub) = x := by
  apply Fin.ext
  rw [val_fieldX, toNat_wordRegReg]
  omega

@[simp] theorem fieldY_wordRegReg (op : BitVec 4) (x y sub : Ix) : fieldY (wordRegReg op x y sub) = y := by
  apply Fin.ext
  rw [val_fieldY, toNat_wordRegReg]
  omega

@[simp] theorem fieldN_wordRegReg (op : BitVec 4) (x y sub : Ix) : fieldN (wordRegReg op x y sub) = sub := by
  apply Fin.ext
  rw [val_fieldN, toNat_wordRegReg]
  omega

/-! A word put together again from its fields, in each of the three formats. -/

theorem wordAddr_fields {w : Word} {op : BitVec 4} (top : (nibble w 12).val = op.toNat) :
    wordAddr op (fieldNNN w) = w := by
  apply BitVec.eq_of_toNat_eq
  rw [toNat_wordAddr, ← top, val_topNibble, toNat_fieldNNN]
  omega

theorem wordRegImm_fields {w : Word} {op : BitVec 4} {nn : Byte} (top : (nibble w 12).val = op.toNat)
    (low : (fieldNN w).toNat = nn.toNat) : wordRegImm op (fieldX w) nn = w := by
  apply BitVec.eq_of_toNat_eq
  rw [toNat_wordRegImm, ← top, ← low, val_topNibble, val_fieldX, toNat_fieldNN]
  omega

theorem wordRegReg_fields {w : Word} {op : BitVec 4} {sub : Ix} (top : (nibble w 12).val = op.toNat)
    (low : (fieldN w).val = sub.val) : wordRegReg op (fieldX w) (fieldY w) sub = w := by
  apply BitVec.eq_of_toNat_eq
  rw [toNat_wordRegReg, ← top, ← low, val_topNibble, val_fieldX, val_fieldY, val_fieldN]
  omega

@[simp] theorem highByte_wordOfBytes (b0 b1 : Byte) : highByte (wordOfBytes b0 b1) = b0 := by
  apply BitVec.eq_of_toNat_eq
  rw [toNat_highByte, toNat_wordOfBytes]
  omega

@[simp] theorem lowByte_wordOfBytes (b0 b1 : Byte) : lowByte (wordOfBytes b0 b1) = b1 := by
  apply BitVec.eq_of_toNat_eq
  rw [toNat_lowByte, toNat_wordOfBytes]
  omega

/-! The words read as UNKNOWN, by the sub-opcode of each family. -/

theorem isUnknownWord_iff (w : Word) : isUnknownWord w = true ↔
    ((nibble w 12).val = 0x0 ∧ highByte w ≠ eofByte ∧ w ≠ 0x00E0 ∧ w ≠ 0x00EE) ∨
    ((nibble w 12).val = 0x5 ∧ (fieldN w).val ≠ 0) ∨
    ((nibble w 12).val = 0x8 ∧ (fieldN w).val ∈ [0x8, 0x9, 0xA, 0xB, 0xC, 0xD, 0xF]) ∨
    ((nibble w 12).val = 0x9 ∧ (fieldN w).val ≠ 0) ∨
    ((nibble w 12).val = 0xE ∧ (fieldNN w).toNat ∉ [0x9E, 0xA1]) ∨
    ((nibble w 12).val = 0xF ∧ (fieldNN w).toNat ∉ [0x07, 0x0A, 0x15, 0x18, 0x1E, 0x29, 0x33, 0x55, 0x65]) := by
  have topNibble : (w.extractLsb' 12 4).toNat = (nibble w 12).val := rfl
  have sub4 (v : BitVec 4) : w.extractLsb' 0 4 = v ↔ (fieldN w).val = v.toNat := BitVec.toNat_eq
  have sub8 (v : Byte) : w.extractLsb' 0 8 = v ↔ (fieldNN w).toNat = v.toNat := BitVec.toNat_eq
  have high : w.extractLsb' 8 8 = highByte w := rfl
  have tops := (nibble w 12).isLt
  unfold isUnknownWord
  rw [topNibble]
  interval_cases (nibble w 12).val
  all_goals simp [sub4, sub8, high, eofByte, and_comm, and_assoc, or_assoc]

theorem decode0_eq_unknown {w u : Word} :
    decode0 w = .unknown u ↔ (highByte w ≠ eofByte ∧ w ≠ 0x00E0 ∧ w ≠ 0x00EE) ∧ w = u := by
  unfold decode0
  split_ifs <;> simp_all

theorem decode8_eq_unknown {w u : Word} :
    decode8 w = .unknown u ↔ (fieldN w).val ∈ [0x8, 0x9, 0xA, 0xB, 0xC, 0xD, 0xF] ∧ w = u := by
  have subs := (fieldN w).isLt
  unfold decode8
  interval_cases (fieldN w).val
  all_goals simp

theorem decodeE_eq_unknown {w u : Word} :
    decodeE w = .unknown u ↔ (fieldNN w).toNat ∉ [0x9E, 0xA1] ∧ w = u := by
  unfold decodeE
  split <;> simp_all

theorem decodeF_eq_unknown {w u : Word} :
    decodeF w = .unknown u ↔
      (fieldNN w).toNat ∉ [0x07, 0x0A, 0x15, 0x18, 0x1E, 0x29, 0x33, 0x55, 0x65] ∧ w = u := by
  unfold decodeF
  split <;> simp_all

/-- The decoder's fallbacks are exactly the words 30_encoding R86 writes out, and each carries its own word. -/
theorem decodeWord_eq_unknown {w u : Word} : decodeWord w = .unknown u ↔ isUnknownWord w = true ∧ w = u := by
  have tops := (nibble w 12).isLt
  rw [isUnknownWord_iff]
  unfold decodeWord
  interval_cases (nibble w 12).val
  all_goals simp [ite_eq_iff, decode0_eq_unknown, decode8_eq_unknown, decodeE_eq_unknown, decodeF_eq_unknown]

theorem wellFormed_decodeWord (w : Word) : (decodeWord w).wellFormed = true := by
  cases decoded : decodeWord w with
  | unknown u =>
    obtain ⟨unknown, rfl⟩ := decodeWord_eq_unknown.1 decoded
    exact unknown
  | _ => rfl

/-! Encoding what was decoded. A sentinel word keeps only its first byte, so it is left out. -/

theorem encodeWord_decode0 {w : Word} (other : highByte w ≠ eofByte) : encodeWord (decode0 w) = w := by
  unfold decode0
  split_ifs <;> simp_all [encodeWord]

theorem encodeWord_decode8 {w : Word} (top : (nibble w 12).val = 0x8) : encodeWord (decode8 w) = w := by
  unfold decode8
  split <;> rename_i low
  case h_10 => rfl
  all_goals exact wordRegReg_fields top low

theorem encodeWord_decodeE {w : Word} (top : (nibble w 12).val = 0xE) : encodeWord (decodeE w) = w := by
  unfold decodeE
  split <;> rename_i low
  case h_3 => rfl
  all_goals exact wordRegImm_fields top low

theorem encodeWord_decodeF {w : Word} (top : (nibble w 12).val = 0xF) : encodeWord (decodeF w) = w := by
  unfold decodeF
  split <;> rename_i low
  case h_10 => rfl
  all_goals exact wordRegImm_fields top low

theorem encodeWord_decodeWord {w : Word} (other : highByte w ≠ eofByte) : encodeWord (decodeWord w) = w := by
  have tops := (nibble w 12).isLt
  unfold decodeWord
  split <;> rename_i top
  case h_1 => exact encodeWord_decode0 other
  case h_9 => exact encodeWord_decode8 top
  case h_15 => exact encodeWord_decodeE top
  case h_16 =>
    simp only [imp_false] at *
    exact encodeWord_decodeF (by omega)
  case h_2 | h_3 | h_11 | h_12 => exact wordAddr_fields top
  case h_4 | h_5 | h_7 | h_8 | h_13 => exact wordRegImm_fields top rfl
  case h_14 => exact wordRegReg_fields top rfl
  case h_6 | h_10 =>
    split_ifs with low
    · exact wordRegReg_fields top low
    · rfl

theorem decodeWord_of_sentinel {w : Word} (sentinel : highByte w = eofByte) : decodeWord w = .eof := by
  have top : (nibble w 12).val = 0 := by
    have high : w.toNat / 256 = 10 := by rw [← toNat_highByte, sentinel]; rfl
    rw [val_topNibble]
    omega
  simp [decodeWord, top, decode0, sentinel]

theorem decodeWord_ne_eof {w : Word} (other : highByte w ≠ eofByte) : decodeWord w ≠ .eof := by
  intro eof
  have word : w = 0x0A00 := by rw [← encodeWord_decodeWord other, eof]; rfl
  exact other (word ▸ rfl)

/-! Decoding what was encoded. -/

theorem decodeWord_encodeWord {i : Instr} (wf : i.wellFormed = true) : decodeWord (encodeWord i) = i := by
  cases i
  case unknown w => exact decodeWord_eq_unknown.2 ⟨wf, rfl⟩
  case eof | cls | ret => rfl
  all_goals simp [encodeWord, decodeWord, decode8, decodeE, decodeF]

theorem highByte_encodeWord_ne {i : Instr} (wf : i.wellFormed = true) (notEof : i ≠ .eof) :
    highByte (encodeWord i) ≠ eofByte :=
  fun sentinel => notEof ((decodeWord_encodeWord wf).symm.trans (decodeWord_of_sentinel sentinel))

theorem encode_of_ne_eof {i : Instr} (notEof : i ≠ .eof) :
    encode i = [highByte (encodeWord i), lowByte (encodeWord i)] := by
  cases i with
  | eof => exact absurd rfl notEof
  | _ => rfl

theorem encode_decodeWord {w : Word} (other : highByte w ≠ eofByte) :
    encode (decodeWord w) = [highByte w, lowByte w] := by
  rw [encode_of_ne_eof (decodeWord_ne_eof other), encodeWord_decodeWord other]

theorem decodeBytes_of_sentinel (rest : List Byte) : decodeBytes (eofByte :: rest) = .ok (.eof, rest) := rfl

theorem decodeBytes_of_word {b0 : Byte} (other : b0 ≠ eofByte) (b1 : Byte) (rest : List Byte) :
    decodeBytes (b0 :: b1 :: rest) = .ok (decodeWord (wordOfBytes b0 b1), rest) := if_neg other

theorem decodeBytes_eq_ok {bytes rest : List Byte} {i : Instr} (decoded : decodeBytes bytes = .ok (i, rest)) :
    (bytes = eofByte :: rest ∧ i = .eof) ∨
    ∃ b0 b1, bytes = b0 :: b1 :: rest ∧ b0 ≠ eofByte ∧ i = decodeWord (wordOfBytes b0 b1) := by
  match bytes with
  | [] => cases decoded
  | b0 :: tail =>
    by_cases sentinel : b0 = eofByte
    · subst sentinel
      cases decoded
      exact .inl ⟨rfl, rfl⟩
    · match tail with
      | [] => simp [decodeBytes, sentinel] at decoded
      | b1 :: tail' =>
        rw [decodeBytes_of_word sentinel] at decoded
        cases decoded
        exact .inr ⟨b0, b1, rfl, sentinel, rfl⟩

/-- Settles O2: the sentinel is its one byte, and every other word is read back whole. -/
theorem decodeOfEncodeIsIdentity : Obligations.DecodeOfEncodeIsIdentity := by
  intro i rest wf
  by_cases eof : i = .eof
  · subst eof
    exact decodeBytes_of_sentinel rest
  · calc decodeBytes (encode i ++ rest)
      _ = decodeBytes (highByte (encodeWord i) :: lowByte (encodeWord i) :: rest) := by rw [encode_of_ne_eof eof]; rfl
      _ = .ok (decodeWord (wordOfBytes (highByte (encodeWord i)) (lowByte (encodeWord i))), rest) :=
        decodeBytes_of_word (highByte_encodeWord_ne wf eof) _ _
      _ = .ok (i, rest) := by rw [wordOfBytes_high_low, decodeWord_encodeWord wf]

/-- Settles O3: bytes decode as the sentinel or as a word, and either encodes back to the bytes it was read from. -/
theorem encodeOfDecodeIsIdentity : Obligations.EncodeOfDecodeIsIdentity := by
  intro bytes rest i decoded
  rcases decodeBytes_eq_ok decoded with ⟨rfl, rfl⟩ | ⟨b0, b1, rfl, other, rfl⟩
  · exact ⟨rfl, rfl⟩
  · have notSentinel : highByte (wordOfBytes b0 b1) ≠ eofByte := by rwa [highByte_wordOfBytes]
    refine ⟨wellFormed_decodeWord _, ?_⟩
    simp [encode_decodeWord notSentinel]

end Sys2Proof
end

section
/-! SUPPORT. The rows of the opcode map (30_encoding R85) against the decoder, and the fields of a decoded word (R92). -/

namespace Sys2Proof

open Sys2Proof.Machine

/-- A mask that keeps the bits from `hi` up and those below `lo`, as arithmetic on the word's value. -/
theorem toNat_and_mask (w mask : Word) (hi lo : Nat) (le : lo ≤ hi)
    (upper : mask.toNat / 2 ^ hi = 2 ^ (16 - hi) - 1) (lower : mask.toNat % 2 ^ hi = 2 ^ lo - 1) :
    (w &&& mask).toNat = w.toNat / 2 ^ hi * 2 ^ hi + w.toNat % 2 ^ lo := by
  have bound : w.toNat / 2 ^ hi < 2 ^ (16 - hi) := by
    refine Nat.div_lt_of_lt_mul (w.isLt.trans_le ?_)
    rw [← Nat.pow_add]
    exact Nat.pow_le_pow_right (by decide) (by omega)
  have quotient : (w &&& mask).toNat / 2 ^ hi = w.toNat / 2 ^ hi := by
    rw [BitVec.toNat_and, Nat.and_div_two_pow, upper, Nat.and_two_pow_sub_one_eq_mod, Nat.mod_eq_of_lt bound]
  have remainder : (w &&& mask).toNat % 2 ^ hi = w.toNat % 2 ^ lo := by
    rw [BitVec.toNat_and, Nat.and_mod_two_pow, lower, Nat.and_two_pow_sub_one_eq_mod,
      Nat.mod_mod_of_dvd _ (Nat.pow_dvd_pow 2 le)]
  rw [← Nat.div_add_mod' (w &&& mask).toNat (2 ^ hi), quotient, remainder]

theorem matchesRow_iff (w v : Word) {mask : Word} (hi lo : Nat) (le : lo ≤ hi)
    (upper : mask.toNat / 2 ^ hi = 2 ^ (16 - hi) - 1) (lower : mask.toNat % 2 ^ hi = 2 ^ lo - 1) :
    matchesRow w (mask, v) = true ↔ w.toNat / 2 ^ hi * 2 ^ hi + w.toNat % 2 ^ lo = v.toNat := by
  rw [matchesRow, beq_iff_eq, BitVec.toNat_eq, toNat_and_mask w mask hi lo le upper lower]

theorem matchesRow_FFFF (w v : Word) : matchesRow w (0xFFFF, v) = true ↔ w.toNat = v.toNat := by
  simpa [Nat.mod_one] using matchesRow_iff w v (mask := 0xFFFF) 0 0 (by decide) rfl rfl

theorem matchesRow_FF00 (w v : Word) : matchesRow w (0xFF00, v) = true ↔ w.toNat / 256 * 256 = v.toNat := by
  simpa [Nat.mod_one] using matchesRow_iff w v (mask := 0xFF00) 8 0 (by decide) rfl rfl

theorem matchesRow_F000 (w v : Word) : matchesRow w (0xF000, v) = true ↔ w.toNat / 4096 * 4096 = v.toNat := by
  simpa [Nat.mod_one] using matchesRow_iff w v (mask := 0xF000) 12 0 (by decide) rfl rfl

theorem matchesRow_F00F (w v : Word) :
    matchesRow w (0xF00F, v) = true ↔ w.toNat / 4096 * 4096 + w.toNat % 16 = v.toNat :=
  matchesRow_iff w v 12 4 (by decide) rfl rfl

theorem matchesRow_F0FF (w v : Word) :
    matchesRow w (0xF0FF, v) = true ↔ w.toNat / 4096 * 4096 + w.toNat % 256 = v.toNat :=
  matchesRow_iff w v 12 8 (by decide) rfl rfl

/-- The words 30_encoding R86 writes out are those that match no row of R85, one top nibble at a time. -/
theorem exists_matchesRow_iff (w : Word) :
    (∃ row ∈ opcodeRows, matchesRow w row = true) ↔ isUnknownWord w = false := by
  have bound : w.toNat < 2 ^ 16 := w.isLt
  have tops : w.toNat / 4096 < 16 := by omega
  rw [← Bool.not_eq_true, isUnknownWord_iff, val_topNibble, val_fieldN, toNat_fieldNN]
  simp only [opcodeRows, List.cons_append, List.nil_append, List.mem_cons, List.not_mem_nil, or_false, exists_eq_or_imp,
    exists_eq_left, matchesRow_FFFF, matchesRow_FF00, matchesRow_F000, matchesRow_F00F, matchesRow_F0FF, ne_eq,
    BitVec.toNat_eq, toNat_highByte]
  interval_cases top : w.toNat / 4096
  all_goals simp [eofByte] <;> omega

theorem exec_unknown (w : Word) (s : State) :
    exec (.unknown w) s = .next (s.setStatus (.faulted (.unknownInstruction s.fetchedAt w))) := rfl

/-- Settles O4: a word matches no row exactly where the decoder falls back, and executing the fallback raises the fault. -/
theorem wordsOfNoRowAreUnknownAndFatal : Obligations.WordsOfNoRowAreUnknownAndFatal := by
  intro w
  constructor
  · intro noRow
    have unknown : isUnknownWord w = true := by
      rw [← Bool.not_eq_false, ← exists_matchesRow_iff]
      simpa using noRow
    have decoded : decodeWord w = .unknown w := decodeWord_eq_unknown.2 ⟨unknown, rfl⟩
    exact ⟨decoded, unknown, fun s => ⟨_, decoded ▸ exec_unknown w s, rfl⟩⟩
  · intro row
    have known := (exists_matchesRow_iff w).1 row
    refine ⟨known, fun u decoded => ?_⟩
    obtain ⟨unknown, -⟩ := decodeWord_eq_unknown.1 decoded
    exact Bool.false_ne_true (known.symm.trans unknown)

/-- Settles O5: two rows that one word matches agree on the bits both masks keep, and no two rows of the map do. -/
theorem opcodeRowsAreDisjoint : Obligations.OpcodeRowsAreDisjoint := by
  have apart : opcodeRows.Pairwise fun r r' => r.2 &&& r'.1 ≠ r'.2 &&& r.1 := by decide
  refine apart.imp fun {r r'} differ w ⟨matchesFirst, matchesSecond⟩ => differ ?_
  simp only [matchesRow, beq_iff_eq] at matchesFirst matchesSecond
  calc r.2 &&& r'.1
    _ = w &&& r.1 &&& r'.1 := by rw [matchesFirst]
    _ = w &&& r'.1 &&& r.1 := by rw [BitVec.and_assoc, BitVec.and_comm r.1, BitVec.and_assoc]
    _ = r'.2 &&& r.1 := by rw [matchesSecond]

theorem fieldN_eq_zero_of_known {w : Word} (known : isUnknownWord w = false)
    (top : w.toNat / 4096 = 5 ∨ w.toNat / 4096 = 9) : fieldN w = 0 := by
  by_contra low
  have low : (fieldN w).val ≠ 0 := fun zero => low (Fin.ext zero)
  have unknown : isUnknownWord w = true := by
    rw [isUnknownWord_iff, val_topNibble]
    rcases top with top | top
    · exact .inr (.inl ⟨top, low⟩)
    · exact .inr (.inr (.inr (.inl ⟨top, low⟩)))
  exact Bool.false_ne_true (known.symm.trans unknown)

/-- Settles O6: the fields are the word's value divided and reduced, and the top nibble picks the decoder's arm. -/
theorem decodedFieldsAreTheWordsSubfields : Obligations.DecodedFieldsAreTheWordsSubfields := by
  intro w known X Y N NN NNN
  have x : fieldX w = X := Fin.ext (val_fieldX w)
  have y : fieldY w = Y := Fin.ext (val_fieldY w)
  have n : fieldN w = N := Fin.ext (val_fieldN w)
  have nn : fieldNN w = NN := BitVec.eq_of_toNat_eq (toNat_fieldNN w)
  have nnn : fieldNNN w = NNN := BitVec.eq_of_toNat_eq (toNat_fieldNNN w)
  refine ⟨fun top => ?jp, fun top => ?call, fun top => ?seImm, fun top => ?sneImm, fun top => ?seReg, fun top => ?ldImm,
    fun top => ?addImm, fun top => ?sneReg, fun top => ?ldI, fun top => ?jpV0, fun top => ?rnd, fun top => ?drw⟩
  case seReg => simp [decodeWord, val_topNibble, top, x, y, fieldN_eq_zero_of_known known (.inl top)]
  case sneReg => simp [decodeWord, val_topNibble, top, x, y, fieldN_eq_zero_of_known known (.inr top)]
  case jp | call | ldI | jpV0 => simp [decodeWord, val_topNibble, top, nnn]
  case drw => simp [decodeWord, val_topNibble, top, x, y, n]
  all_goals simp [decodeWord, val_topNibble, top, x, nn]

/-- Settles O1: each word is evaluated. -/
theorem decodeReadsWrittenWords : Obligations.DecodeReadsWrittenWords := by
  unfold Obligations.DecodeReadsWrittenWords
  decide

end Sys2Proof
end

section
/-! SUPPORT. The frames of the control instructions' updates: pc alone, the status alone, pc and the stack. -/

namespace Sys2Proof.Machine

theorem setPc_unchanged (s : State) (w : Word) : UnchangedBut (fun c => c = .pc) s (s.setPc w) := by
  intro c kept
  cases c with
  | pc => exact absurd rfl kept
  | _ => rfl

theorem setStatus_unchanged (s : State) (x : Status) : UnchangedBut (fun c => c = .status) s (s.setStatus x) := by
  intro c kept
  cases c with
  | status => exact absurd rfl kept
  | _ => rfl

theorem pc_stack_unchanged (s : State) (w : Word) (returns : List Word) :
    UnchangedBut (fun c => c = .pc ∨ c = .stack) s { s with pc := w, stack := returns } := by
  intro c kept
  cases c with
  | pc => exact absurd (.inl rfl) kept
  | stack => exact absurd (.inr rfl) kept
  | _ => rfl

/-- A skip that is not taken changes nothing at all. -/
theorem skipIf_unchanged (s : State) (taken : Bool) : UnchangedBut (fun c => c = .pc) s (s.skipIf taken) := by
  cases taken with
  | true => exact setPc_unchanged s (s.pc + 2)
  | false => exact setPc_unchanged s s.pc

/-- The new pc of a skip, by the proposition its test decides. -/
theorem skipIf_pc_of_iff (s : State) {taken : Bool} {p : Prop} [Decidable p] (test : taken = true ↔ p) :
    (s.skipIf taken).pc = if p then s.pc + 2 else s.pc := by
  simp only [State.skipIf_pc, test]

end Sys2Proof.Machine
end

section
/-! SUPPORT. The control instructions: jumps, CALL and RET, skips, UNKNOWN (40_control R105 to R114, R125). -/

namespace Sys2Proof.Machine

theorem exec_ret_of_concat {s : State} {below : List Word} {top : Word} (popped : s.stack = below ++ [top]) :
    exec .ret s = .next { s with pc := top, stack := below } := by
  simp [exec, execRet, popped]

theorem exec_ret_of_nil {s : State} (empty : s.stack = []) :
    exec .ret s = .next (s.setStatus (.faulted (.stackUnderflow s.fetchedAt))) := by
  simp [exec, execRet, empty, raise]

theorem exec_call_of_room {s : State} (room : s.stack.length < Config.stackDepth) (nnn : Addr12) :
    exec (.call nnn) s = .next ((s.push s.pc).setPc (zextAddr nnn)) := if_neg (Nat.not_le_of_lt room)

theorem exec_call_of_full {s : State} (full : s.stack.length = Config.stackDepth) (nnn : Addr12) :
    exec (.call nnn) s = .next (s.setStatus (.faulted (.stackOverflow s.fetchedAt))) := if_pos full.ge

/-- The sum of a byte and a 12-bit address fits the 16 bits of pc, so it does not wrap (D3). -/
theorem toNat_jpV0_target (b : Byte) (nnn : Addr12) :
    (zextByte b + zextAddr nnn).toNat = b.toNat + nnn.toNat := by
  have := b.isLt
  have := nnn.isLt
  rw [BitVec.toNat_add, toNat_zextByte, toNat_zextAddr]
  omega

/-- Settles O17: a stack with a top entry is popped, an empty one raises StackUnderflow. -/
theorem retPopsOrUnderflows : Obligations.RetPopsOrUnderflows :=
  fun s =>
    ⟨fun below top popped => ⟨_, exec_ret_of_concat popped, rfl, rfl, pc_stack_unchanged s top below⟩,
      fun empty => ⟨_, exec_ret_of_nil empty, rfl, setStatus_unchanged s _⟩⟩

/-- Settles O18: NNN extended to 16 bits keeps its value. -/
theorem jpSetsPc : Obligations.JpSetsPc :=
  fun nnn s => ⟨_, rfl, toNat_zextAddr nnn, setPc_unchanged s _⟩

/-- Settles O19: with room the advanced pc is pushed, at 16 entries StackOverflow is raised. -/
theorem callPushesOrOverflows : Obligations.CallPushesOrOverflows :=
  fun nnn s =>
    ⟨fun room => ⟨_, exec_call_of_room room nnn, rfl, toNat_zextAddr nnn, pc_stack_unchanged s _ _⟩,
      fun full => ⟨_, exec_call_of_full full nnn, rfl, setStatus_unchanged s _⟩⟩

/-- Settles O20: the top entry that RET pops is the pc that CALL pushed. -/
theorem retMatchesItsCall : Obligations.RetMatchesItsCall := by
  intro nnn s t u room called sameStack
  cases (exec_call_of_room room nnn).symm.trans called
  have popped : u.stack = s.stack ++ [s.pc] := sameStack
  exact ⟨_, exec_ret_of_concat popped, rfl, rfl⟩

/-- Settles O21: both are a skip, on the test's outcome or on its opposite. -/
theorem skipsOnImmediate : Obligations.SkipsOnImmediate :=
  fun _ _ s =>
    ⟨⟨_, rfl, skipIf_pc_of_iff s beq_iff_eq, skipIf_unchanged s _⟩,
      ⟨_, rfl, skipIf_pc_of_iff s bne_iff_ne, skipIf_unchanged s _⟩⟩

/-- Settles O22: both are a skip, on the test's outcome or on its opposite. -/
theorem skipsOnRegister : Obligations.SkipsOnRegister :=
  fun _ _ s =>
    ⟨⟨_, rfl, skipIf_pc_of_iff s beq_iff_eq, skipIf_unchanged s _⟩,
      ⟨_, rfl, skipIf_pc_of_iff s bne_iff_ne, skipIf_unchanged s _⟩⟩

/-- Settles O23: the sum fits in 16 bits. -/
theorem jpV0SetsPcToTheSum : Obligations.JpV0SetsPcToTheSum :=
  fun nnn s => ⟨_, rfl, toNat_jpV0_target (s.reg 0) nnn, setPc_unchanged s _⟩

/-- Settles O24: raising the fault changes the status alone. -/
theorem unknownRecordsItsFault : Obligations.UnknownRecordsItsFault :=
  fun w s => ⟨_, exec_unknown w s, rfl, setStatus_unchanged s _⟩

end Sys2Proof.Machine
end

section
/-! SUPPORT. What the fetch finds, by where pc stands and the bytes there, and the CPU's step that follows (40_control R100 to
R102). -/

namespace Sys2Proof.Machine

variable {s : State}

theorem fetch_past_the_end (outside : Config.memSize ≤ s.pc.toNat) :
    fetch s = .error (.outOfBounds s.pc s.pc.toNat 1) := by
  simp [fetch, fetchWindow_none outside, decodeBytes]

/-- At the last address a byte other than the sentinel lacks its second byte. -/
theorem fetch_at_the_end (last : s.pc.toNat + 1 = Config.memSize) (other : readByte s.mem s.pc.toNat ≠ eofByte) :
    fetch s = .error (.outOfBounds s.pc (s.pc.toNat + 1) 1) := by
  simp [fetch, fetchWindow_one last, decodeBytes, other]

/-- EOF is fetched at a sentinel byte in bounds and nowhere else. -/
theorem fetch_eq_eof_iff :
    fetch s = .ok .eof ↔ s.pc.toNat < Config.memSize ∧ readByte s.mem s.pc.toNat = eofByte := by
  refine ⟨fun found => ?_, fun ⟨inside, sentinel⟩ => fetch_of_sentinel inside sentinel⟩
  by_cases outside : Config.memSize ≤ s.pc.toNat
  · cases (fetch_past_the_end outside).symm.trans found
  refine ⟨Nat.lt_of_not_le outside, ?_⟩
  by_contra other
  by_cases last : s.pc.toNat + 1 = Config.memSize
  · cases (fetch_at_the_end last other).symm.trans found
  · have decoded := Except.ok.inj ((fetch_of_word (by omega) other).symm.trans found)
    exact decodeWord_ne_eof (by rwa [highByte_wordOfBytes]) decoded

theorem bytesAt_succ (m : Memory) (a n : Nat) : bytesAt m a (n + 1) = readByte m a :: bytesAt m (a + 1) n := by
  simp [bytesAt, List.range_succ_eq_map, Function.comp_def, Nat.add_comm, Nat.add_left_comm]

/-- The fetch finds what any window of bytes in bounds at pc decodes to. -/
theorem fetch_of_decodeBytes {n : Nat} {i : Instr} {rest : List Byte} (inside : s.pc.toNat + n ≤ Config.memSize)
    (decoded : decodeBytes (bytesAt s.mem s.pc.toNat n) = .ok (i, rest)) : fetch s = .ok i := by
  cases n with
  | zero => cases decoded
  | succ n =>
    rw [bytesAt_succ] at decoded
    by_cases sentinel : readByte s.mem s.pc.toNat = eofByte
    · rw [sentinel, decodeBytes_of_sentinel] at decoded
      cases decoded
      exact fetch_of_sentinel (by omega) sentinel
    · cases n with
      | zero => simp [bytesAt, decodeBytes, sentinel] at decoded
      | succ n =>
        rw [bytesAt_succ, decodeBytes_of_word sentinel] at decoded
        cases decoded
        exact fetch_of_word (by omega) sentinel

/-- Settles O7: the CPU's step by what the fetch finds in each of the five cases. -/
theorem cpuStepFetchesAdvancesAndExecutes : Obligations.CpuStepFetchesAdvancesAndExecutes := by
  refine fun s => ⟨fun run inside sentinel => ?sentinel, fun run inside other => ?word, fun run outside => ?outside,
    fun run last other => ?last, cpuStep_of_not_running⟩
  case sentinel => exact cpuStep_of_fetch_ok run (fetch_of_sentinel inside sentinel)
  case word => exact cpuStep_of_fetch_ok run (fetch_of_word inside other)
  case outside => exact cpuStep_of_fetch_error run (fetch_past_the_end outside)
  case last =>
    have failed := fetch_at_the_end (s := s) (congrArg (· + 1) last) (last ▸ other)
    rw [last] at failed
    exact cpuStep_of_fetch_error run failed

/-- Settles O8: the step is the CPU's transition from the state the events leave. -/
theorem stepRunsTheDecodedInstruction : Obligations.StepRunsTheDecodedInstruction := by
  rintro s _ n i rest rfl run inside decoded
  exact cpuStep_of_fetch_ok run (fetch_of_decodeBytes inside decoded)

/-- Settles O16: EOF sets the status alone, and the CPU fetches EOF at a sentinel byte. -/
theorem sentinelHalts : Obligations.SentinelHalts :=
  ⟨fun s => ⟨_, rfl, rfl, setStatus_unchanged s .halted⟩,
    fun _ run inside sentinel => (runsBytes_readByte run).1 inside sentinel⟩

end Sys2Proof.Machine
end

section
/-! SUPPORT. Halted: no event touches it, and only EOF enters it (40_control R104). -/

namespace Sys2Proof.Machine

variable {s t : State}

/-- A boundary that leaves the status and the general registers changes only what the timers and the host own. -/
theorem landEvents_unchanged (status : s.landEvents.status = s.status) (v : s.landEvents.v = s.v) :
    UnchangedBut EnvironmentOwned s s.landEvents := by
  intro c kept
  cases c with
  | reg x => exact State.reg_congr v x
  | status => exact status
  | dt | st | fbDirty | key | schedule | boundary => exact absurd trivial kept
  | i | pc | stack | byte | pixel | draws => rfl

theorem landEvents_of_not_waiting (notWaiting : ∀ x, s.status ≠ .waitKey x) :
    s.landEvents.status = s.status ∧ UnchangedBut EnvironmentOwned s s.landEvents := by
  obtain ⟨status, v⟩ := foldl_deliver_not_waiting s.dueEvents (s := s.passBoundary) notWaiting
  rw [← landEvents_eq_foldl] at status v
  exact ⟨status, landEvents_unchanged status v⟩

/-- A press ends a wait in Running; nothing else an event does touches the status. -/
theorem deliver_not_halted (notHalted : s.status ≠ .halted) (e : Event) : (Event.deliver s e).status ≠ .halted := by
  cases e with
  | keyDown k =>
    simp only [Event.deliver, State.wakeOn]
    split
    · simp
    · exact notHalted
  | tickDT | tickST | keyUp | readout => exact notHalted

theorem landEvents_not_halted (notHalted : s.status ≠ .halted) : s.landEvents.status ≠ .halted := by
  rw [landEvents_eq_foldl]
  exact List.foldlRecOn s.dueEvents Event.deliver (motive := fun u => u.status ≠ .halted)
    (show s.passBoundary.status ≠ .halted from notHalted) fun _ still e _ => deliver_not_halted still e

/-- EOF alone halts: a fault leaves Faulted, a wait WaitKey, and every other update leaves the status. -/
theorem Effect.eq_eof_of_halted {i : Instr} (h : Effect s i t) (notHalted : s.status ≠ .halted)
    (halted : t.status = .halted) : i = .eof := by
  cases h with
  | halt => rfl
  | fault f => simp at halted
  | wait x => simp at halted
  | _ => exact absurd (by simpa using halted) notHalted

/-- The CPU halts only from Running, at a sentinel byte in bounds. -/
theorem sentinel_of_cpuStep_halted (h : cpuStep s = .next t) (notHalted : s.status ≠ .halted)
    (halted : t.status = .halted) :
    s.status = .running ∧ s.pc.toNat < Config.memSize ∧ readByte s.mem s.pc.toNat = eofByte := by
  by_cases run : s.status = .running
  case neg =>
    cases (cpuStep_of_not_running run).symm.trans h
    exact absurd halted notHalted
  refine ⟨run, ?_⟩
  cases found : fetch s with
  | error f =>
    cases (cpuStep_of_fetch_error run found).symm.trans h
    simp at halted
  | ok i =>
    have effect := effect_of_exec ((cpuStep_of_fetch_ok run found).symm.trans h)
    cases effect.eq_eof_of_halted notHalted halted
    exact fetch_eq_eof_iff.1 found

/-- Settles O9: in Halted only the events land, and only EOF at a sentinel byte enters it. -/
theorem haltedIsFinal : Obligations.HaltedIsFinal := by
  refine ⟨fun s halted => ?final, fun s t h halted notHalted => ?entered⟩
  case final =>
    obtain ⟨status, unchanged⟩ := landEvents_of_not_waiting (s := s) (by rw [halted]; nofun)
    have stillHalted : s.landEvents.status = .halted := status.trans halted
    have stepped : step s = .next s.landEvents := cpuStep_of_not_running (by rw [stillHalted]; nofun)
    refine ⟨⟨_, stepped, stillHalted, unchanged⟩, fun quiet => ?_⟩
    rw [stepped, landEvents_of_no_event quiet]
    rfl
  case entered => exact sentinel_of_cpuStep_halted h (landEvents_not_halted notHalted) halted

end Sys2Proof.Machine
end

section
/-! SUPPORT. The values the 41_alu instructions compute, as arithmetic on naturals and integers (41_alu R136 to R142). -/

namespace Sys2Proof.Machine

theorem toNat_add8 (a b : Byte) : (add8 a b).toNat = (a.toNat + b.toNat) % 256 := BitVec.toNat_ofNat ..

/-- The 256 added before the subtraction (41_alu R137) keeps it on naturals and is gone modulo 256. -/
theorem toNat_sub8 (a b : Byte) : ((sub8 a b).toNat : Int) = (a.toNat - b.toNat : Int) % 256 := by
  have := b.isLt
  rw [sub8, BitVec.toNat_ofNat]
  omega

theorem toNat_shr8 (a : Byte) : (shr8 a).toNat = a.toNat / 2 := by
  have := a.isLt
  rw [shr8, BitVec.toNat_ofNat]
  omega

theorem toNat_shl8 (a : Byte) : (shl8 a).toNat = a.toNat * 2 % 256 := BitVec.toNat_ofNat ..

theorem flagByte_decide (p : Prop) [Decidable p] : flagByte (decide p) = if p then 1 else 0 := by
  simp only [flagByte, decide_eq_true_eq]

theorem toNat_flagByte (c : Bool) : (flagByte c).toNat = c.toNat := by cases c <;> rfl

/-- The bit SHR shifts out is the lowest one. -/
theorem toNat_shrFlag (a : Byte) : (shrFlag a).toNat = a.toNat % 2 := by
  rw [shrFlag, BitVec.getLsbD, Nat.toNat_testBit, Nat.pow_zero, Nat.div_one]

/-- The bit SHL shifts out is the highest of the eight. -/
theorem toNat_shlFlag (a : Byte) : (shlFlag a).toNat = a.toNat / 128 := by
  have := a.isLt
  rw [shlFlag, BitVec.getLsbD, Nat.toNat_testBit]
  omega

end Sys2Proof.Machine
end

section
/-! SUPPORT. The frames of the register updates: one register, one register and VF, one register and the count of draws. -/

namespace Sys2Proof.Machine

theorem setReg_unchanged (s : State) (x : Ix) (b : Byte) : UnchangedBut (fun c => c = .reg x) s (s.setReg x b) := by
  intro c kept
  cases c with
  | reg y => exact State.reg_setReg_of_ne s (fun same => kept (congrArg _ same)) b
  | _ => rfl

theorem setRegFlag_unchanged (s : State) (x : Ix) (b : Byte) (flag : Bool) :
    UnchangedBut (fun c => c = .reg x ∨ c = .reg vF) s (s.setRegFlag x b flag) := by
  intro c kept
  obtain ⟨notX, notVF⟩ := not_or.1 kept
  have result := setReg_unchanged s x b c notX
  have flagged := setReg_unchanged (s.setReg x b) vF (flagByte flag) c notVF
  cases c <;> exact flagged.trans result

theorem setReg_draws_unchanged (s : State) (x : Ix) (b : Byte) (n : Nat) :
    UnchangedBut (fun c => c = .reg x ∨ c = .draws) s { s.setReg x b with draws := n } := by
  intro c kept
  obtain ⟨notX, notDraws⟩ := not_or.1 kept
  cases c with
  | draws => exact absurd rfl notDraws
  | _ => exact setReg_unchanged s x b _ notX

end Sys2Proof.Machine
end

section
/-! SUPPORT. The arithmetic and logic instructions: loads, ADD and SUB, bitwise logic, shifts, RND (41_alu R130 to R141). -/

namespace Sys2Proof.Machine

/-- Settles O25: the one update is the register's. -/
theorem ldImmediateSetsRegister : Obligations.LdImmediateSetsRegister :=
  fun x nn s => ⟨_, rfl, s.reg_setReg_self x nn, setReg_unchanged s x nn⟩

/-- Settles O26: the register receives the wrapped sum and no flag is written. -/
theorem addImmediateWrapsWithNoFlag : Obligations.AddImmediateWrapsWithNoFlag := by
  refine fun x nn s => ⟨_, rfl, ?_, setReg_unchanged s x _⟩
  rw [State.reg_setReg_self, toNat_add8]

/-- Settles O27: each is one register update, and the bitwise operators act bit by bit. -/
theorem copyAndBitwiseLogic : Obligations.CopyAndBitwiseLogic := by
  refine fun x y s => ⟨⟨_, rfl, s.reg_setReg_self x _, setReg_unchanged s x _⟩,
    ⟨_, rfl, fun k => ?or, setReg_unchanged s x _⟩, ⟨_, rfl, fun k => ?and, setReg_unchanged s x _⟩,
    ⟨_, rfl, fun k => ?xor, setReg_unchanged s x _⟩⟩
  case or => rw [State.reg_setReg_self, BitVec.getLsbD_or]
  case and => rw [State.reg_setReg_self, BitVec.getLsbD_and]
  case xor => rw [State.reg_setReg_self, BitVec.getLsbD_xor]

/-- Settles O28: the wrapped sum for a destination other than VF, and the carry for every destination, since VF is last. -/
theorem addWritesSumAndCarry : Obligations.AddWritesSumAndCarry := by
  refine fun x y s => ⟨_, rfl, fun other => ?sum, ?carry, setRegFlag_unchanged s x _ _⟩
  case sum => rw [State.reg_setRegFlag_self s other, toNat_add8]
  case carry => rw [State.reg_setRegFlag_vF, carryFlag, flagByte_decide]

/-- What SUB and SUBN write for `a - b`: the wrapped difference for a destination other than VF, and the flag for every
destination, since VF is last (41_alu R143). -/
theorem difference_and_noBorrow_written {s t : State} {x : Ix} {a b : Byte}
    (written : t = s.setRegFlag x (sub8 a b) (noBorrowFlag a b)) :
    (x ≠ vF → ((t.reg x).toNat : Int) = (a.toNat - b.toNat : Int) % 256) ∧
      t.reg vF = (if a.toNat ≥ b.toNat then 1 else 0) ∧ UnchangedBut (fun c => c = .reg x ∨ c = .reg vF) s t := by
  subst written
  refine ⟨fun other => ?difference, ?noBorrow, setRegFlag_unchanged s x _ _⟩
  case difference => rw [State.reg_setRegFlag_self s other, toNat_sub8]
  case noBorrow => rw [State.reg_setRegFlag_vF, noBorrowFlag, flagByte_decide]

/-- Settles O29: the difference is V[X] - V[Y]. -/
theorem subWritesDifferenceAndNoBorrow : Obligations.SubWritesDifferenceAndNoBorrow :=
  fun _ _ _ => ⟨_, rfl, difference_and_noBorrow_written rfl⟩

/-- Settles O30: the difference is V[Y] - V[X]. -/
theorem subnWritesDifferenceAndNoBorrow : Obligations.SubnWritesDifferenceAndNoBorrow :=
  fun _ _ _ => ⟨_, rfl, difference_and_noBorrow_written rfl⟩

/-- Settles O31: SHR halves and gives up the lowest bit, SHL doubles and gives up the highest. -/
theorem shiftsWriteTheBitShiftedOut : Obligations.ShiftsWriteTheBitShiftedOut := by
  refine fun x y s => ⟨⟨_, rfl, fun other => ?half, ?lowest, setRegFlag_unchanged s x _ _⟩,
    ⟨_, rfl, fun other => ?double, ?highest, setRegFlag_unchanged s x _ _⟩⟩
  case half => rw [State.reg_setRegFlag_self s other, toNat_shr8]
  case lowest => rw [State.reg_setRegFlag_vF, toNat_flagByte, toNat_shrFlag]
  case double => rw [State.reg_setRegFlag_self s other, toNat_shl8]
  case highest => rw [State.reg_setRegFlag_vF, toNat_flagByte, toNat_shlFlag]

/-- Settles O32: the masked draw, whatever the draw is, and one more draw made. -/
theorem rndWritesTheMaskedDraw : Obligations.RndWritesTheMaskedDraw :=
  fun x _ s => ⟨_, rfl, s.reg_setReg_self x _, rfl, setReg_draws_unchanged s x _ _⟩

end Sys2Proof.Machine
end

section
/-! SUPPORT. The frames of the updates of 42_index_memory: I, VF, a block of memory, a block of registers. -/

namespace Sys2Proof.Machine

theorem setI_unchanged (s : State) (w : Word) : UnchangedBut (fun c => c = .i) s (s.setI w) := by
  intro c kept
  cases c with
  | i => exact absurd rfl kept
  | _ => rfl

theorem setI_setFlag_unchanged (s : State) (w : Word) (flag : Bool) :
    UnchangedBut (fun c => c = .i ∨ c = .reg vF) s ((s.setI w).setFlag flag) := by
  intro c kept
  obtain ⟨notI, notVF⟩ := not_or.1 kept
  have index := setI_unchanged s w c notI
  have flagged := setReg_unchanged (s.setI w) vF (flagByte flag) c notVF
  cases c <;> exact flagged.trans index

/-- A block write changes the bytes of its block alone. -/
theorem writeBytes_unchanged {s : State} (wf : Memory.wf s.mem = true) (addr : Nat) (bytes : List Byte) :
    UnchangedBut (fun c => ∃ k < bytes.length, c = .byte (addr + k)) s
      { s with mem := writeBytes s.mem addr bytes } := by
  intro c kept
  cases c with
  | byte a =>
    have outside : ¬ (addr ≤ a ∧ a < addr + bytes.length) :=
      fun ⟨low, high⟩ => kept ⟨a - addr, by omega, by rw [Nat.add_sub_cancel' low]⟩
    have sorted := ((Memory.wf_iff _).1 wf).1
    exact (readByte_writeBytes sorted addr bytes a).trans (if_neg outside)
  | _ => rfl

/-- Loading a block from V0 on sets the registers of the block and no other. -/
theorem reg_loadRegs (s : State) (bytes : List Byte) (k : Ix) :
    State.reg { s with v := loadRegs s.v 0 bytes } k = if k.val < bytes.length then bytes.getD k.val 0 else s.reg k := by
  simp [State.reg, getElem_loadRegs]

theorem loadRegs_unchanged (s : State) {x : Ix} {bytes : List Byte} (count : bytes.length = x.val + 1) :
    UnchangedBut (fun c => ∃ k ≤ x, c = .reg k) s { s with v := loadRegs s.v 0 bytes } := by
  intro c kept
  cases c with
  | reg k =>
    have above : ¬ k.val < bytes.length := by
      rw [count]
      exact fun below => kept ⟨k, Nat.le_of_lt_succ below, rfl⟩
    exact (reg_loadRegs s bytes k).trans (if_neg above)
  | _ => rfl

end Sys2Proof.Machine
end

section
/-! SUPPORT. The transfers through I: what LD B, LD [I] and LD Vx,[I] answer inside the address space and past it
(42_index_memory R162, R164 to R166). -/

namespace Sys2Proof.Machine

variable {s t : State} {x : Ix}

theorem exec_ldB_of_fits (fits : s.i.toNat + 3 ≤ 4096) :
    exec (.ldB x) s = .next { s with mem := writeBytes s.mem s.transferAddr (bcdDigits (s.reg x)) } :=
  storeBytes_of_fits fits

theorem exec_ldB_of_too_long (tooLong : s.i.toNat + 3 > 4096) :
    exec (.ldB x) s = .next (s.setStatus (.faulted (.outOfBounds s.fetchedAt s.transferAddr 3))) :=
  storeBytes_of_too_long tooLong

theorem exec_ldMemFromRegs_of_fits (fits : s.i.toNat + x.val + 1 ≤ 4096) :
    exec (.ldMemFromRegs x) s = .next { s with mem := writeBytes s.mem s.transferAddr (s.regsUpTo x) } :=
  storeBytes_of_fits (by rw [length_regsUpTo]; exact fits)

theorem exec_ldMemFromRegs_of_too_long (tooLong : s.i.toNat + x.val + 1 > 4096) :
    exec (.ldMemFromRegs x) s = .next (s.setStatus (.faulted (.outOfBounds s.fetchedAt s.transferAddr (x.val + 1)))) := by
  rw [← length_regsUpTo s x]
  exact storeBytes_of_too_long (by rw [length_regsUpTo]; exact tooLong)

theorem exec_ldRegsFromMem_of_fits (fits : s.i.toNat + x.val + 1 ≤ 4096) :
    exec (.ldRegsFromMem x) s =
      .next { s with v := loadRegs s.v 0 (bytesAt s.mem s.transferAddr (x.val + 1)) } :=
  withBytes_of_fits (n := x.val + 1) fits _

theorem exec_ldRegsFromMem_of_too_long (tooLong : s.i.toNat + x.val + 1 > 4096) :
    exec (.ldRegsFromMem x) s = .next (s.setStatus (.faulted (.outOfBounds s.fetchedAt s.transferAddr (x.val + 1)))) :=
  withBytes_of_too_long (n := x.val + 1) tooLong _

/-- The bytes LD B stores have the values of the digits: each of them fits a byte. -/
theorem toNat_readByte_of_ldB (wf : Memory.wf s.mem = true) (fits : s.i.toNat + 3 ≤ 4096)
    (h : exec (.ldB x) s = .next t) :
    (readByte t.mem s.transferAddr).toNat = (s.reg x).toNat / 100 ∧
      (readByte t.mem (s.transferAddr + 1)).toNat = (s.reg x).toNat / 10 % 10 ∧
      (readByte t.mem (s.transferAddr + 2)).toNat = (s.reg x).toNat % 10 := by
  have := (s.reg x).isLt
  have hundreds : (s.reg x).toNat / 100 < 256 := by omega
  have tens : (s.reg x).toNat / 10 % 10 < 256 := by omega
  have ones : (s.reg x).toNat % 10 < 256 := by omega
  simp [readByte_of_ldB wf fits h, State.transferAddr, Nat.mod_eq_of_lt, hundreds, tens, ones]

/-- LD [I] in bounds stores register `k` at byte `k` of the block. -/
theorem readByte_of_ldMemFromRegs_reg (wf : Memory.wf s.mem = true) (fits : s.i.toNat + x.val + 1 ≤ 4096)
    (h : exec (.ldMemFromRegs x) s = .next t) {k : Ix} (listed : k ≤ x) :
    readByte t.mem (s.transferAddr + k.val) = s.reg k := by
  have inBlock : s.i.toNat ≤ s.i.toNat + k.val ∧ s.i.toNat + k.val ≤ s.i.toNat + x.val :=
    ⟨Nat.le_add_right .., Nat.add_le_add_left listed _⟩
  rw [readByte_of_ldMemFromRegs wf fits h, State.transferAddr, if_pos inBlock, Nat.add_sub_cancel_left]
  simp

/-- LD Vx,[I] in bounds loads byte `k` of the block into register `k`, and leaves the registers above `x`. -/
theorem reg_of_ldRegsFromMem (fits : s.i.toNat + x.val + 1 ≤ 4096) (h : exec (.ldRegsFromMem x) s = .next t) (k : Ix) :
    t.reg k = if k ≤ x then readByte s.mem (s.transferAddr + k.val) else s.reg k := by
  cases (exec_ldRegsFromMem_of_fits fits).symm.trans h
  rw [reg_loadRegs, length_bytesAt]
  by_cases listed : k ≤ x
  · have inBlock : k.val < x.val + 1 := Nat.lt_succ_of_le listed
    rw [if_pos listed, if_pos inBlock, List.getD_eq_getElem _ _ (by rwa [length_bytesAt]), getElem_bytesAt]
  · rw [if_neg listed, if_neg fun below => listed (Nat.le_of_lt_succ below)]

end Sys2Proof.Machine
end

section
/-! SUPPORT. The instructions of 42_index_memory: LD I, ADD I, LD F, and the transfers through I (R160 to R166). -/

namespace Sys2Proof.Machine

theorem toNat_addI16 (i : Word) (b : Byte) : (addI16 i b).toNat = (i.toNat + b.toNat) % 65536 := BitVec.toNat_ofNat ..

/-- A glyph's address fits 16 bits, so it does not wrap (20_memory R58). -/
theorem toNat_glyphAddress (d : Byte) : (glyphAddress d).toNat = 0x050 + 5 * d.toNat := by
  have := d.isLt
  have fits : 0x050 + 5 * d.toNat < 2 ^ 16 := by omega
  exact (BitVec.toNat_ofNat ..).trans (Nat.mod_eq_of_lt fits)

theorem exec_ldF_of_digit {x : Ix} {s : State} (digit : (s.reg x).toNat ≤ 15) :
    exec (.ldF x) s = .next (s.setI (glyphAddress (s.reg x))) := by
  have value : hexValue (s.reg x) = some ⟨(s.reg x).toNat, by omega⟩ := hexValue_eq_some.2 rfl
  simp [exec, execLdF, value]

theorem exec_ldF_of_invalid {x : Ix} {s : State} (invalid : (s.reg x).toNat > 15) :
    exec (.ldF x) s = .next (s.setStatus (.faulted (.invalidDigit s.fetchedAt (s.reg x)))) := by
  simp [exec, execLdF, hexValue_eq_none.2 invalid, raise]

/-- Settles O33: NNN extended to 16 bits keeps its value. -/
theorem ldISetsI : Obligations.LdISetsI :=
  fun nnn s => ⟨_, rfl, toNat_zextAddr nnn, setI_unchanged s _⟩

/-- Settles O34: I receives the wrapped sum, and VF, written last, the test of the unwrapped one. -/
theorem addIWritesSumAndFlag : Obligations.AddIWritesSumAndFlag := by
  refine fun x s => ⟨_, rfl, toNat_addI16 s.i (s.reg x), ?flag, setI_setFlag_unchanged s _ _⟩
  case flag => rw [State.reg_setFlag_vF, addIFlag, flagByte_decide]

/-- Settles O35: a digit up to 15 has its glyph's address, and a value above raises InvalidDigit. -/
theorem ldFFindsTheGlyphOrFaults : Obligations.LdFFindsTheGlyphOrFaults :=
  fun x s =>
    ⟨fun digit => ⟨_, exec_ldF_of_digit digit, toNat_glyphAddress (s.reg x), setI_unchanged s _⟩,
      fun invalid => ⟨_, exec_ldF_of_invalid invalid, rfl, setStatus_unchanged s _⟩⟩

/-- Settles O36: the block is the three digits, or OutOfBounds is raised before the write. -/
theorem ldBStoresDecimalDigits : Obligations.LdBStoresDecimalDigits := by
  refine fun x s wf => ⟨fun fits => ?stored,
    fun tooLong => ⟨_, exec_ldB_of_too_long tooLong, rfl, setStatus_unchanged s _⟩⟩
  case stored =>
    have stored := exec_ldB_of_fits (x := x) fits
    obtain ⟨hundreds, tens, ones⟩ := toNat_readByte_of_ldB wf fits stored
    exact ⟨_, stored, hundreds, tens, ones, writeBytes_unchanged wf _ (bcdDigits (s.reg x))⟩

/-- Settles O37: the block is V0 to VX, or OutOfBounds is raised before the write. -/
theorem ldMemStoresRegisters : Obligations.LdMemStoresRegisters := by
  refine fun x s wf => ⟨fun fits => ?stored,
    fun tooLong => ⟨_, exec_ldMemFromRegs_of_too_long tooLong, rfl, setStatus_unchanged s _⟩⟩
  case stored =>
    have stored := exec_ldMemFromRegs_of_fits fits
    have frame := writeBytes_unchanged wf s.transferAddr (s.regsUpTo x)
    simp only [length_regsUpTo, Nat.lt_succ_iff] at frame
    exact ⟨_, stored, fun k => readByte_of_ldMemFromRegs_reg wf fits stored, frame⟩

/-- Settles O38: V0 to VX receive the block, or OutOfBounds is raised before the load. -/
theorem ldRegsLoadsFromMemory : Obligations.LdRegsLoadsFromMemory := by
  refine fun x s => ⟨fun fits => ?loaded,
    fun tooLong => ⟨_, exec_ldRegsFromMem_of_too_long tooLong, rfl, setStatus_unchanged s _⟩⟩
  case loaded =>
    have loaded := exec_ldRegsFromMem_of_fits fits
    exact ⟨_, loaded, fun k listed => (reg_of_ldRegsFromMem fits loaded k).trans (if_pos listed),
      loadRegs_unchanged s (length_bytesAt ..)⟩

/-- Settles O39: the store leaves I, so the load reads the block that was stored. -/
theorem registerDumpThenLoadRestores : Obligations.RegisterDumpThenLoadRestores := by
  intro x s t u wf fits stored sameMem sameI
  have index : u.i = s.i := sameI.trans ((effect_of_exec stored).i_eq (by simp) (by simp) (by simp))
  have loaded := exec_ldRegsFromMem_of_fits (s := u) (index ▸ fits)
  refine ⟨_, loaded, fun k => (reg_of_ldRegsFromMem (index ▸ fits) loaded k).trans ?_⟩
  by_cases listed : k ≤ x
  · have address : u.transferAddr = s.transferAddr := congrArg BitVec.toNat index
    rw [if_pos listed, if_pos listed, sameMem, address, readByte_of_ldMemFromRegs_reg wf fits stored listed]
  · rw [if_neg listed, if_neg listed]

end Sys2Proof.Machine
end

section
/-! SUPPORT. A sprite laid over a grid: the pixels it flips and whether it meets a set one, for a bit, a row and all rows
(43_display R182 to R184). -/

namespace Sys2Proof.Machine

/-- A set pixel of the grid lies under a set bit. -/
def Meets (fb : Framebuffer) (bits : Nat → Nat → Bool) : Prop :=
  ∃ px py, px < 64 ∧ py < 32 ∧ pixel fb px py = true ∧ bits px py = true

/-- Drawing `bits` over the grid of `acc` leaves `acc'`: each pixel on the grid is XORed with its bit, and a collision is
added to the one so far. -/
structure Overlays (bits : Nat → Nat → Bool) (acc acc' : Framebuffer × Bool) : Prop where
  pixel_eq : ∀ px py, px < 64 → py < 32 → pixel acc'.1 px py = (pixel acc.1 px py ^^ bits px py)
  collided_iff : acc'.2 = true ↔ acc.2 = true ∨ Meets acc.1 bits

variable {acc acc' acc'' : Framebuffer × Bool} {bits bits' : Nat → Nat → Bool}

/-- No bit on the grid: nothing to draw and nothing to meet. -/
theorem overlays_nothing (acc : Framebuffer × Bool) (empty : ∀ px py, px < 64 → py < 32 → bits px py = false) :
    Overlays bits acc acc where
  pixel_eq px py hx hy := by rw [empty px py hx hy, Bool.xor_false]
  collided_iff := by
    have misses : ¬ Meets acc.1 bits := fun ⟨px, py, hx, hy, _, bit⟩ => by simp [empty px py hx hy] at bit
    exact (or_iff_left misses).symm

/-- Bits that fall on different pixels can be drawn one set after the other: what the second set meets, the first left as
it was. -/
theorem Overlays.trans (first : Overlays bits acc acc') (second : Overlays bits' acc' acc'')
    (disjoint : ∀ px py, bits px py = true → bits' px py = false) :
    Overlays (fun px py => bits px py || bits' px py) acc acc'' where
  pixel_eq px py hx hy := by
    rw [second.pixel_eq px py hx hy, first.pixel_eq px py hx hy, Bool.xor_assoc]
    cases bit : bits px py with
    | false => rw [Bool.false_xor, Bool.false_or]
    | true => rw [disjoint px py bit, Bool.xor_false, Bool.true_or]
  collided_iff := by
    have untouched : Meets acc'.1 bits' ↔ Meets acc.1 bits' := by
      refine exists₂_congr fun px py => and_congr_right fun hx => and_congr_right fun hy => and_congr_left fun bit' => ?_
      have clear : bits px py = false := Bool.eq_false_iff.2 fun bit => by simp [disjoint px py bit] at bit'
      rw [first.pixel_eq px py hx hy, clear, Bool.xor_false]
    have either : Meets acc.1 (fun px py => bits px py || bits' px py) ↔ Meets acc.1 bits ∨ Meets acc.1 bits' := by
      simp only [Meets, Bool.or_eq_true, and_or_left, exists_or]
    rw [second.collided_iff, first.collided_iff, untouched, either, or_assoc]

/-- One bit flips the pixel it falls on; off the grid it falls on none. -/
theorem drawPixel_overlays (acc : Framebuffer × Bool) (x y : Nat) (bit : Bool) :
    Overlays (fun px py => decide (px = x ∧ py = y) && bit) acc (drawPixel acc x y bit) := by
  by_cases onGrid : x < 64 ∧ y < 32
  · have drawn : drawPixel acc x y bit =
        (setPixel acc.1 x y (pixel acc.1 x y ^^ bit), acc.2 || (pixel acc.1 x y && bit)) := if_pos onGrid
    rw [drawn]
    refine ⟨fun px py _ _ => ?pixel, ?collided⟩
    case pixel =>
      rw [pixel_setPixel]
      by_cases here : px = x ∧ py = y
      · obtain ⟨rfl, rfl⟩ := here
        simp [onGrid]
      · simp [here]
    case collided =>
      simp only [Meets, Bool.or_eq_true, Bool.and_eq_true, decide_eq_true_eq]
      refine or_congr_right ⟨fun ⟨set, isSet⟩ => ⟨x, y, onGrid.1, onGrid.2, set, ⟨rfl, rfl⟩, isSet⟩, ?_⟩
      rintro ⟨px, py, -, -, set, ⟨rfl, rfl⟩, isSet⟩
      exact ⟨set, isSet⟩
  · have dropped : drawPixel acc x y bit = acc := if_neg onGrid
    rw [dropped]
    refine overlays_nothing acc fun px py hx hy => ?_
    have elsewhere : ¬ (px = x ∧ py = y) := by omega
    simp [elsewhere]

/-- The first `n` bits of a sprite row. -/
def rowBits (row : Byte) (x0 y0 n px py : Nat) : Bool :=
  decide (py = y0 ∧ x0 ≤ px ∧ px < x0 + n) && row.getLsbD (7 - (px - x0))

theorem rowBits_succ (row : Byte) (x0 y0 n : Nat) :
    rowBits row x0 y0 (n + 1) = fun px py =>
      rowBits row x0 y0 n px py || (decide (px = x0 + n ∧ py = y0) && row.getLsbD (7 - n)) := by
  funext px py
  by_cases last : px = x0 + n
  · subst last
    simp [rowBits]
  · have before : px < x0 + (n + 1) ↔ px < x0 + n := by omega
    simp [rowBits, last, before]

/-- The bits of a row fall on it from left to right, each on a pixel of its own. -/
theorem foldl_drawPixel_overlays (acc : Framebuffer × Bool) (row : Byte) (x0 y0 n : Nat) :
    Overlays (rowBits row x0 y0 n) acc
      ((List.range n).foldl (fun acc b => drawPixel acc (x0 + b) y0 (row.getLsbD (7 - b))) acc) := by
  induction n with
  | zero => exact overlays_nothing acc fun px py _ _ => by simp [rowBits]
  | succ n ih =>
    rw [List.range_succ, List.foldl_append, rowBits_succ]
    refine ih.trans (drawPixel_overlays _ (x0 + n) y0 _) fun px py before => ?_
    have left : px ≠ x0 + n := by
      simp only [rowBits, Bool.and_eq_true, decide_eq_true_eq] at before
      omega
    simp [left]

theorem drawRow_overlays (acc : Framebuffer × Bool) (row : Byte) (x0 y0 : Nat) :
    Overlays (rowBits row x0 y0 8) acc (drawRow acc x0 y0 row) := foldl_drawPixel_overlays acc row x0 y0 8

/-- The top row of a sprite, and below it the sprite of the other rows. -/
theorem spriteBit_cons (row : Byte) (rows : List Byte) (x0 y0 : Nat) :
    spriteBit (row :: rows) x0 y0 = fun px py => rowBits row x0 y0 8 px py || spriteBit rows x0 (y0 + 1) px py := by
  funext px py
  rcases Nat.lt_trichotomy py y0 with above | rfl | below
  · have outside : ¬ y0 ≤ py := by omega
    have outside' : ¬ y0 + 1 ≤ py := by omega
    have other : py ≠ y0 := by omega
    simp [spriteBit, rowBits, outside, outside', other]
  · simp [spriteBit, rowBits]
  · obtain ⟨k, rfl⟩ := Nat.exists_eq_add_of_le (Nat.succ_le_of_lt below)
    have index : y0 + 1 + k - y0 = k + 1 := by omega
    have other : y0 + 1 + k ≠ y0 := by omega
    have inside : y0 + 1 + k < y0 + (rows.length + 1) ↔ y0 + 1 + k < y0 + 1 + rows.length := by omega
    have start : y0 ≤ y0 + 1 + k := by omega
    simp [spriteBit, rowBits, index, other, inside, start]

theorem drawRows_overlays (acc : Framebuffer × Bool) (x0 y0 : Nat) (rows : List Byte) :
    Overlays (spriteBit rows x0 y0) acc (drawRows acc x0 y0 rows) := by
  induction rows generalizing acc y0 with
  | nil => exact overlays_nothing acc fun px py _ _ => by simp [spriteBit]
  | cons row rows ih =>
    rw [spriteBit_cons]
    refine (drawRow_overlays acc row x0 y0).trans (ih _ (y0 + 1)) fun px py top => ?_
    have above : ¬ y0 + 1 ≤ py := by
      simp only [rowBits, Bool.and_eq_true, decide_eq_true_eq] at top
      omega
    simp [spriteBit, above]

/-- Drawing XORs the sprite onto the grid, clipped at its edges. -/
theorem pixel_draw (fb : Framebuffer) (x0 y0 : Nat) (rows : List Byte) {px py : Nat} (hx : px < 64) (hy : py < 32) :
    pixel (draw fb x0 y0 rows).1 px py = (pixel fb px py ^^ spriteBit rows x0 y0 px py) :=
  (drawRows_overlays (fb, false) x0 y0 rows).pixel_eq px py hx hy

/-- Drawing collides where a set pixel lies under a set bit of the sprite. -/
theorem draw_collides_iff (fb : Framebuffer) (x0 y0 : Nat) (rows : List Byte) :
    (draw fb x0 y0 rows).2 = true ↔ Meets fb (spriteBit rows x0 y0) :=
  (drawRows_overlays (fb, false) x0 y0 rows).collided_iff.trans (or_iff_right Bool.false_ne_true)

end Sys2Proof.Machine
end

section
/-! SUPPORT. The frames of the display's updates: the grid and the dirty flag, with and without VF, and the readout. -/

namespace Sys2Proof.Machine

theorem display_unchanged (s : State) (fb : Framebuffer) :
    UnchangedBut (fun c => c = .fbDirty ∨ ∃ px py, c = .pixel px py) s (s.display fb) := by
  intro c kept
  cases c with
  | fbDirty => exact absurd (.inl rfl) kept
  | pixel px py => exact absurd (.inr ⟨px, py, rfl⟩) kept
  | _ => rfl

theorem display_setFlag_unchanged (s : State) (fb : Framebuffer) (flag : Bool) :
    UnchangedBut (fun c => c = .reg vF ∨ c = .fbDirty ∨ ∃ px py, c = .pixel px py) s ((s.display fb).setFlag flag) := by
  intro c kept
  obtain ⟨notVF, notDisplay⟩ := not_or.1 kept
  have displayed := display_unchanged s fb c notDisplay
  have flagged := setReg_unchanged (s.display fb) vF (flagByte flag) c notVF
  cases c <;> exact flagged.trans displayed

theorem readout_unchanged (s : State) : UnchangedBut (fun c => c = .fbDirty) s (Event.readout.deliver s) := by
  intro c kept
  cases c with
  | fbDirty => exact absurd rfl kept
  | _ => rfl

end Sys2Proof.Machine
end

section
/-! SUPPORT. CLS, DRW and the readout, and drawing the same sprite twice (43_display R180 to R187). -/

namespace Sys2Proof.Machine

theorem flagByte_eq_one_iff (c : Bool) : flagByte c = 1 ↔ c = true := by cases c <;> decide

theorem flagByte_eq_zero_or_one (c : Bool) : flagByte c = 0 ∨ flagByte c = 1 := by cases c <;> decide

/-- A grid other than the clear one has a set pixel. -/
theorem ne_clearedFb_iff {fb : Framebuffer} : fb ≠ clearedFb ↔ ∃ px py, px < 64 ∧ py < 32 ∧ pixel fb px py = true := by
  refine ⟨fun other => ?_, ?_⟩
  · by_contra allClear
    refine other (framebuffer_ext fun px py hx hy => ?_)
    rw [pixel_clearedFb, Bool.eq_false_iff]
    exact fun set => allClear ⟨px, py, hx, hy, set⟩
  · rintro ⟨px, py, -, -, set⟩ rfl
    simp at set

theorem exec_drw_of_fits {x y n : Ix} {s : State} (fits : s.i.toNat + n.val ≤ 4096) :
    exec (.drw x y n) s =
      .next ((s.display (draw s.fb (s.reg x).toNat (s.reg y).toNat (bytesAt s.mem s.transferAddr n.val)).1).setFlag
        (draw s.fb (s.reg x).toNat (s.reg y).toNat (bytesAt s.mem s.transferAddr n.val)).2) :=
  withBytes_of_fits fits _

theorem exec_drw_of_too_long {x y n : Ix} {s : State} (tooLong : s.i.toNat + n.val > 4096) :
    exec (.drw x y n) s = .next (s.setStatus (.faulted (.outOfBounds s.fetchedAt s.transferAddr n.val))) :=
  withBytes_of_too_long tooLong _

/-- Settles O15: the one update is the flag's. -/
theorem readoutClearsDirtyOnly : Obligations.ReadoutClearsDirtyOnly :=
  fun s => ⟨rfl, rfl, readout_unchanged s⟩

/-- Settles O42: the grid put in place is the clear one. -/
theorem clsClearsEveryPixel : Obligations.ClsClearsEveryPixel :=
  fun s => ⟨_, rfl, fun px py _ _ => pixel_clearedFb px py, rfl, display_unchanged s clearedFb⟩

/-- Settles O43: the rows read in bounds are drawn and VF is the collision, or OutOfBounds is raised before the draw. -/
theorem drwXorsTheClippedSprite : Obligations.DrwXorsTheClippedSprite := by
  refine fun x y n s => ⟨fun fits => ?drawn,
    fun tooLong => ⟨_, exec_drw_of_too_long tooLong, rfl, setStatus_unchanged s _⟩⟩
  case drawn =>
    refine ⟨_, exec_drw_of_fits fits, fun px py hx hy => ?pixel, ?collided, ?flag, rfl, display_setFlag_unchanged s _ _⟩
    case pixel => exact pixel_draw s.fb _ _ _ hx hy
    case collided =>
      rw [State.reg_setFlag_vF, flagByte_eq_one_iff]
      exact draw_collides_iff s.fb _ _ _
    case flag =>
      rw [State.reg_setFlag_vF]
      exact flagByte_eq_zero_or_one _

/-- Settles O44: the second XOR undoes the first, and on the clear grid the set pixels after the first draw are the ones under
the sprite's set bits. -/
theorem drawingTwiceRestores : Obligations.DrawingTwiceRestores := by
  refine fun x0 y0 rows => ⟨fun fb => framebuffer_ext fun px py hx hy => ?restored, ?first, ?second⟩
  case restored =>
    rw [pixel_draw _ x0 y0 rows hx hy, pixel_draw fb x0 y0 rows hx hy, Bool.xor_assoc, Bool.xor_self, Bool.xor_false]
  case first =>
    rw [Bool.eq_false_iff, Ne, draw_collides_iff]
    rintro ⟨px, py, -, -, set, -⟩
    simp at set
  case second =>
    rw [draw_collides_iff, ne_clearedFb_iff]
    refine exists₂_congr fun px py => and_congr_right fun hx => and_congr_right fun hy => and_iff_left_of_imp fun set => ?_
    rwa [pixel_draw clearedFb x0 y0 rows hx hy, pixel_clearedFb, Bool.false_xor] at set

end Sys2Proof.Machine
end

section
/-! SUPPORT. The frames of the timers' and the keys' updates, and the composition of two frames. -/

namespace Sys2Proof.Machine

theorem SameOn.trans {s t u : State} {c : Component} (first : SameOn s t c) (second : SameOn t u c) : SameOn s u c := by
  cases c <;> exact Eq.trans second first

theorem dt_unchanged (s : State) (b : Byte) : UnchangedBut (fun c => c = .dt) s { s with dt := b } := by
  intro c kept
  cases c with
  | dt => exact absurd rfl kept
  | _ => rfl

theorem st_unchanged (s : State) (b : Byte) : UnchangedBut (fun c => c = .st) s { s with st := b } := by
  intro c kept
  cases c with
  | st => exact absurd rfl kept
  | _ => rfl

theorem setKey_unchanged (s : State) (k : Ix) (held : Bool) :
    UnchangedBut (fun c => c = .key k) s (s.setKey k held) := by
  intro c kept
  cases c with
  | key j =>
    have other : k.val ≠ j.val := fun same => kept (congrArg Component.key (Fin.ext same.symm))
    exact Vector.getElem_set_ne k.isLt j.isLt other
  | _ => rfl

end Sys2Proof.Machine
end

section
/-! SUPPORT. The timers: reads and writes by the instructions, ticks, and the tone (44_timers_input R200 to R202, R210;
60_exceptions R252). -/

namespace Sys2Proof.Machine

theorem tone_iff (s : State) : s.tone = true ↔ 0 < s.st.toNat := by
  rw [State.tone, bne_iff_ne, Nat.pos_iff_ne_zero]
  exact not_congr BitVec.toNat_eq

/-- Settles O14: each timer moves only on its own tick, and the tone is on while ST is above 0. -/
theorem timersCountTheirTicksDown : Obligations.TimersCountTheirTicksDown := by
  refine fun events s => ⟨foldl_deliver_dt events s, foldl_deliver_st events s, ?tone⟩
  case tone => rw [tone_iff, foldl_deliver_st, Nat.sub_pos_iff_lt]

/-- Settles O13: the one update is the timer's own. -/
theorem tickTakesOneOffItsOwnTimer : Obligations.TickTakesOneOffItsOwnTimer :=
  fun s => ⟨⟨toNat_tick s.dt, dt_unchanged s _⟩, ⟨toNat_tick s.st, st_unchanged s _⟩⟩

/-- Settles O45: the one update is the register's, DT's or ST's. -/
theorem timerReadsAndWrites : Obligations.TimerReadsAndWrites :=
  fun x s => ⟨⟨_, rfl, s.reg_setReg_self x _, setReg_unchanged s x _⟩, ⟨_, rfl, rfl, dt_unchanged s _⟩,
    ⟨_, rfl, rfl, st_unchanged s _⟩⟩

end Sys2Proof.Machine
end

section
/-! SUPPORT. The keys: the wait for a press, the key events, and the skips on a key (44_timers_input R203 to R207). -/

namespace Sys2Proof.Machine

variable {s : State} {x : Ix}

/-- A press that finds a wait sets its key, writes the waiting register and sets the CPU Running (44_timers_input R207). -/
theorem deliver_keyDown_of_waiting (waiting : s.status = .waitKey x) (k : Ix) :
    (Event.keyDown k).deliver s = ((s.setKey k true).setReg x (BitVec.ofNat 8 k.val)).setStatus .running := by
  simp [Event.deliver, State.wakeOn, waiting]

/-- A press that finds no wait sets its key and does nothing else. -/
theorem deliver_keyDown_of_not_waiting (notWaiting : ∀ x, s.status ≠ .waitKey x) (k : Ix) :
    (Event.keyDown k).deliver s = s.setKey k true := by
  rw [Event.deliver, State.wakeOn]
  split
  case h_1 x waiting => exact absurd waiting (notWaiting x)
  case h_2 => rfl

theorem wake_unchanged (s : State) (k x : Ix) (b : Byte) (status : Status) :
    UnchangedBut (fun c => c = .reg x ∨ c = .status ∨ c = .key k) s
      (((s.setKey k true).setReg x b).setStatus status) := by
  intro c kept
  obtain ⟨notReg, notStatus, notKey⟩ := by simpa only [not_or] using kept
  exact ((setKey_unchanged s k true c notKey).trans (setReg_unchanged _ x b c notReg)).trans
    (setStatus_unchanged _ status c notStatus)

/-- Where no press is due, a boundary leaves a wait, as it does every other status, and the general registers. -/
theorem landEvents_of_no_press (noPress : ∀ k, .keyDown k ∉ s.dueEvents) :
    s.landEvents.status = s.status ∧ UnchangedBut EnvironmentOwned s s.landEvents := by
  obtain ⟨status, v⟩ := foldl_deliver_of_no_press s.passBoundary noPress
  rw [← landEvents_eq_foldl] at status v
  exact ⟨status, landEvents_unchanged status v⟩

theorem skipOnKey_of_key {k : Ix} (key : s.reg x = BitVec.ofNat 8 k.val) (held : Bool) :
    skipOnKey x held s = .next (s.skipIf (s.keyHeld[k.val] == held)) := by
  have value : (s.reg x).toNat = k.val := by
    rw [key, BitVec.toNat_ofNat]
    omega
  simp [skipOnKey, hexValue_eq_some.2 value]

theorem skipOnKey_of_invalid (invalid : (s.reg x).toNat > 15) (held : Bool) :
    skipOnKey x held s = .next (s.setStatus (.faulted (.invalidKey s.fetchedAt (s.reg x)))) := by
  simp [skipOnKey, hexValue_eq_none.2 invalid, raise]

end Sys2Proof.Machine
end

section
/-! SUPPORT. The statements about the wait for a key, the key events and the skips on a key. -/

namespace Sys2Proof.Machine

/-- Settles O11: the instruction sets the status alone, and without a press a boundary leaves the wait and the registers, so
the CPU has no transition to make. -/
theorem keyWaitHoldsUntilAPress : Obligations.KeyWaitHoldsUntilAPress := by
  refine ⟨fun x s => ⟨_, rfl, rfl, setStatus_unchanged s _⟩, fun x s waiting noPress => ?holds⟩
  case holds =>
    obtain ⟨status, unchanged⟩ := landEvents_of_no_press fun k due => noPress _ due k rfl
    have stillWaiting : s.landEvents.status = .waitKey x := status.trans waiting
    exact ⟨_, cpuStep_of_not_running (by rw [stillWaiting]; nofun), stillWaiting, unchanged⟩

/-- Settles O12: a press in a wait, a press outside one, and a release, each by the updates it makes. -/
theorem keyEventsDriveKeysAndEndTheWait : Obligations.KeyEventsDriveKeysAndEndTheWait := by
  refine fun s k => ⟨fun x waiting => ?woken, fun notWaiting => ?pressed, ?released, setKey_unchanged s k false⟩
  case woken =>
    rw [deliver_keyDown_of_waiting waiting]
    exact ⟨State.reg_setReg_self _ x _, rfl, Vector.getElem_set_self k.isLt, wake_unchanged s k x _ _⟩
  case pressed =>
    rw [deliver_keyDown_of_not_waiting notWaiting]
    exact ⟨Vector.getElem_set_self k.isLt, setKey_unchanged s k true⟩
  case released => exact Vector.getElem_set_self k.isLt

/-- Settles O46: SKP and SKNP are one skip, on the key held or on it released, and a value above 15 names no key. -/
theorem skipsOnKey : Obligations.SkipsOnKey := by
  refine fun x s => ⟨fun k key => ⟨?skp, ?sknp⟩, fun invalid => ⟨?invalidSkp, ?invalidSknp⟩⟩
  case skp => exact ⟨_, skipOnKey_of_key key true, skipIf_pc_of_iff s beq_iff_eq, skipIf_unchanged s _⟩
  case sknp => exact ⟨_, skipOnKey_of_key key false, skipIf_pc_of_iff s beq_iff_eq, skipIf_unchanged s _⟩
  case invalidSkp => exact ⟨_, skipOnKey_of_invalid invalid true, rfl, setStatus_unchanged s _⟩
  case invalidSknp => exact ⟨_, skipOnKey_of_invalid invalid false, rfl, setStatus_unchanged s _⟩

end Sys2Proof.Machine
end

section
/-! SUPPORT. The fatal conditions: what a fault leaves, that Faulted is not left, and that every step answers a next state
(60_exceptions R221 to R223). -/

namespace Sys2Proof.Machine

variable {s t : State}

/-- A state that was Running is Faulted by the update of a raised fault alone: every other one leaves another status. -/
theorem Effect.eq_fault_of_faulted {i : Instr} {f : Fault} (h : Effect s i t) (run : s.status = .running)
    (faulted : t.status = .faulted f) : t = s.setStatus (.faulted f) ∧ f.site = s.fetchedAt := by
  cases h with
  | fault g site =>
    cases faulted
    exact ⟨rfl, site⟩
  | _ => simp [run] at faulted

/-- The CPU's transition is none, a fetch fault's entry, or an instruction's update: each a next state. -/
theorem cpuStep_answers_next (s : State) : ∃ t, cpuStep s = .next t := by
  by_cases run : s.status = .running
  case neg => exact ⟨_, cpuStep_of_not_running run⟩
  cases found : fetch s with
  | error f => exact ⟨_, cpuStep_of_fetch_error run found⟩
  | ok i =>
    obtain ⟨t, executed, -⟩ := executes i s.advancePc
    exact ⟨t, (cpuStep_of_fetch_ok run found).trans executed⟩

/-- Settles O10: no event touches the status outside a wait, and in Faulted the CPU makes no transition. -/
theorem faultedIsTerminal : Obligations.FaultedIsTerminal := by
  intro s f faulted
  obtain ⟨status, unchanged⟩ := landEvents_of_not_waiting (s := s) (by rw [faulted]; nofun)
  have stillFaulted : s.landEvents.status = .faulted f := status.trans faulted
  exact ⟨_, cpuStep_of_not_running (by rw [stillFaulted]; nofun), stillFaulted, unchanged⟩

/-- Settles O53: the raised fault is the one update that leaves Faulted, and it changes the status alone. -/
theorem faultLeavesAllElseAsItWas : Obligations.FaultLeavesAllElseAsItWas :=
  fun _ _ _ _ run executed faulted => (effect_of_exec executed).eq_fault_of_faulted run faulted

/-- Settles O54: the events land, and the CPU's transition from there answers a next state. -/
theorem everyStepAnswersNext : Obligations.EveryStepAnswersNext :=
  fun s => cpuStep_answers_next s.landEvents

end Sys2Proof.Machine
end

section
/-! SUPPORT. The load of a ROM into any memory in its canonical form, copied or refused, and `State.reset` as the launch with
the parameters of `CleanReset` (70_reset_and_hazards R260 to R262). -/

namespace Sys2Proof.Machine

theorem loadProgram_of_too_long (m : Memory) {rom : List Byte} (tooLong : rom.length > Config.progMaxLen) :
    loadProgram m rom = .error .programTooLarge := by
  have outside : Config.progBase + rom.length > Config.memSize := Nat.add_lt_add_left tooLong Config.progBase
  rw [loadProgram, memWrite_eq_none.2 outside]

/-- The written block reads back byte for byte. -/
theorem readByte_writeBytes_add {m : Memory} (wf : Memory.wf m = true) (a : Nat) {bytes : List Byte} {k : Nat}
    (h : k < bytes.length) : readByte (writeBytes m a bytes) (a + k) = bytes[k] := by
  have sorted := ((Memory.wf_iff m).1 wf).1
  rw [readByte_writeBytes sorted, if_pos (by omega), Nat.add_sub_cancel_left, List.getD_eq_getElem _ _ h]

/-- Outside the written block every byte reads as before. -/
theorem readByte_writeBytes_outside {m : Memory} (wf : Memory.wf m = true) {a c : Nat} {bytes : List Byte}
    (outside : c < a ∨ a + bytes.length ≤ c) : readByte (writeBytes m a bytes) c = readByte m c := by
  have sorted := ((Memory.wf_iff m).1 wf).1
  rw [readByte_writeBytes sorted, if_neg (by omega)]

/-- Settles O57: the ROM fits up to address 4096 exactly if it has at most 3584 bytes, and the load is then one write at
0x200. -/
theorem romIsCopiedOrRefused : Obligations.RomIsCopiedOrRefused := by
  refine fun m rom wf => ⟨fun fits => ?copied, loadProgram_of_too_long m⟩
  case copied =>
    exact ⟨_, loadProgram_of_fits m fits, wf_writeBytes wf (Nat.add_le_add_left fits Config.progBase),
      fun k h => readByte_writeBytes_add wf _ h, fun a outside => readByte_writeBytes_outside wf outside⟩

/-- A memory that reads as if nothing were listed lists nothing. -/
theorem memoryOf_unlisted : memoryOf unlisted = [] := by
  simp [memoryOf]

theorem unlisted_font (d : Fin Config.fontLen) : unlisted (Config.fontBase + d.val) = defaultFontVector[d.val] := by
  rw [unlisted, if_pos (Nat.le_add_right _ _), Nat.add_sub_cancel_left, List.getD_eq_getElem _ _ d.isLt]
  rfl

theorem unlisted_outside_font {a : Nat} (outside : a < Config.fontBase ∨ Config.fontBase + Config.fontLen ≤ a) :
    unlisted a = resetFill := by
  rcases outside with below | above
  · exact if_neg (Nat.not_le_of_lt below)
  · rw [unlisted, List.getD_eq_default _ _ (Nat.le_sub_of_add_le' above), ite_self]

/-- The memory `CleanReset` constructs is the default font with zeros around it. -/
theorem constructedByte_cleanParams : constructedByte cleanParams = unlisted := by
  funext a
  by_cases outside : a < Config.fontBase ∨ Config.fontBase + Config.fontLen ≤ a
  case pos => exact (constructedByte_outside_font cleanParams outside).trans (unlisted_outside_font outside).symm
  case neg =>
    obtain ⟨d, rfl⟩ := Nat.exists_eq_add_of_le (Nat.le_of_not_lt (not_or.1 outside).1)
    have inFont : d < Config.fontLen := by omega
    exact (constructedByte_font cleanParams ⟨d, inFont⟩).trans (unlisted_font ⟨d, inFont⟩).symm

theorem launchMemory_cleanParams_nil : launchMemory cleanParams [] = [] := by
  rw [launchMemory, writeBytes, constructedByte_cleanParams, memoryOf_unlisted]

/-- Settles O59: the constructed memory lists nothing, and every other field is the same value. -/
theorem resetIsTheCleanLaunch : Obligations.ResetIsTheCleanLaunch := by
  have sameState : launchState cleanParams [] = State.reset := by
    rw [launchState, launchMemory_cleanParams_nil]
    rfl
  exact (launch_of_fits cleanParams (Nat.zero_le _)).trans (congrArg Except.ok sameState)

end Sys2Proof.Machine
end
